-- ==== Sys2Proof/Word.lean ====
section
/-! DEFINITION. The word and byte types and the radix (00_scope.md R6, R11; 10_state.md R100). -/

namespace Sys2Proof

/-- A limb, a command word, a bus word: 32 bits (R6, R11). -/
abbrev Word := BitVec 32

/-- One byte lane of the host bus (20_memory.md R211). -/
abbrev Byte := BitVec 8

/-- A byte offset in the host register space, `ADDR_W` = 17 bits (00_scope.md R10). -/
abbrev Offset := BitVec 17

/-- The radix `B` = 2^32 of a big register's limbs (R6, R12). -/
abbrev radix : Nat := 2 ^ 32

end Sys2Proof
end

