-- ==== Sys2Proof/Machine/Limbs.lean ====
section
/-! DEFINITION. Limb sequences and natural numbers (00_scope.md R12 to R15, 10_state.md R101): a limb
sequence is a list of words, least significant first (20_memory.md R210). -/

namespace Sys2Proof.Machine

/-- The represented value: Σ limb[k] · 2^(32k) (10_state.md R101). -/
def limbsVal : List Word → Nat
  | [] => 0
  | l :: ls => l.toNat + radix * limbsVal ls

/-- `limb_k(v)` = (v div B^k) mod B (00_scope.md R15). -/
def limbAt (k v : Nat) : Word := BitVec.ofNat 32 (v / radix ^ k)

/-- The first `n` limbs of `v`: limb_0(v), limb_1(v), … -/
def limbsOf : Nat → Nat → List Word
  | 0, _ => []
  | n + 1, v => BitVec.ofNat 32 v :: limbsOf n (v / radix)

/-- `nlimbs(v)`: "0 if v = 0, else the least n with v < B^n" (00_scope.md R15). -/
def nlimbs (v : Nat) : Nat := if v = 0 then 0 else v.log2 / 32 + 1

/-- `clz32(w)`, the number of leading zero bits of a 32-bit w ≠ 0 (00_scope.md R15). -/
def clz32 (w : Word) : Nat := 31 - w.toNat.log2

/-- The "trailing zero trim": drops the zero limbs at the most significant end
(42_add_sub.md R447, 43_multiply.md R462, 40_representation.md R408). -/
def trimLimbs : List Word → List Word
  | [] => []
  | l :: ls => if trimLimbs ls = [] ∧ l = 0 then [] else l :: trimLimbs ls

/-- Byte lane `j` (0 to 3) of a bus word: bits [8j+7:8j] (20_memory.md R211). -/
def byteLane (w : Word) (j : Nat) : Byte := w.extractLsb' (8 * j) 8

end Sys2Proof.Machine
end

