-- ==== Sys2Proof/Config.lean ====
section
/-! DEFINITION. What is fixed for the machine, and the free values the spec leaves open
(00_scope.md R7 to R10, 20_memory.md R208, 60_exceptions.md R606).
`MAX_LIMBS` is the parameter of R8; State carries it as the register CAP (log entry 4). -/

namespace Sys2Proof.Config

/-- The number of big registers (R7). -/
abbrev nreg : Nat := 16

/-- The least legal `MAX_LIMBS` (R8). -/
abbrev minMaxLimbs : Nat := 20

/-- The greatest legal `MAX_LIMBS` (R8). -/
abbrev maxMaxLimbs : Nat := 1024

/-- This spec's default `MAX_LIMBS` (R8). -/
abbrev defaultMaxLimbs : Nat := 128

/-- FREE VALUE: what the `n`-th open read gives while BUSY = 1, "any 32-bit value", "drawn freshly
at each read, under no law" (20_memory.md R208). No body, so that no proof sees a value
(DESIGN CHOICE of the form, log entry 3; safe). -/
opaque freeWord : Nat → Word

/-- FREE VALUE: how many host events take place between the acceptance of a command and its
completion step (`LATENCY`, 00_scope.md R9: "some finite number"; 60_exceptions.md R606: "When it falls
is left open"). No body (DESIGN CHOICE of the form, log entry 2; safe). -/
opaque latency : Nat → Nat

end Sys2Proof.Config
end

