-- ==== Sys2Proof/Syntax.lean ====
section
/-! DEFINITION. The fifteen commands of spec/opcode_table.json (30_encoding.md R304), one constructor each.
Operands stand in the order of the encoding's fields rd, rs1, rs2, rs3, imm8 (R300). -/

namespace Sys2Proof

/-- A big register's number, `r0` to `r15`; all 16 are legal (30_encoding.md R301). -/
abbrev RegIx := Fin 16

/-- A command of the block. -/
inductive Instr where
  /-- `NOP` (46_system.md R530). -/
  | nop
  /-- `CLR rd` (40_representation.md R400). -/
  | clr (rd : RegIx)
  /-- `COPY rd, rs1` (40_representation.md R402). -/
  | copy (rd rs1 : RegIx)
  /-- `CONST rd, #k` (40_representation.md R404); `k` is a number the imm8 field must hold (WellFormed). -/
  | const (rd : RegIx) (k : Nat)
  /-- `SETW rd`; the value comes from DATA (40_representation.md R406). -/
  | setw (rd : RegIx)
  /-- `SETLEN rd`; the length comes from DATA (40_representation.md R408). -/
  | setlen (rd : RegIx)
  /-- `CLRERR` (46_system.md R531). -/
  | clrerr
  /-- `ADD rd, rs1, rs2` (42_add_sub.md R440). -/
  | add (rd rs1 rs2 : RegIx)
  /-- `SUB rd, rs1, rs2` (42_add_sub.md R446). -/
  | sub (rd rs1 rs2 : RegIx)
  /-- `MUL rd, rs1, rs2` (43_multiply.md R460). -/
  | mul (rd rs1 rs2 : RegIx)
  /-- `DIV`: quotient to rd, remainder to rs3, dividend rs1, divisor rs2 (44_divide.md R480).
  The assembler writes it `DIV rd, rs3, rs1, rs2` (R320). -/
  | div (rd rs1 rs2 rs3 : RegIx)
  /-- `MOD rd, rs1, rs2` (45_modular.md R510). -/
  | mod (rd rs1 rs2 : RegIx)
  /-- `MULMOD rd, rs1, rs2, rs3`; rs3 is the modulus (45_modular.md R512). -/
  | mulmod (rd rs1 rs2 rs3 : RegIx)
  /-- `CMP rs1, rs2` (41_comparator.md R420). -/
  | cmp (rs1 rs2 : RegIx)
  /-- `TSTZ rs1` (41_comparator.md R424). -/
  | tstz (rs1 : RegIx)
  deriving DecidableEq, Repr

end Sys2Proof
end

