-- ==== Sys2Proof/WellFormed.lean ====
section
/-! DEFINITION. Which commands have a command word (30_encoding.md R301). Register numbers are in range by
their type; the one operand that can fail to fit its field is CONST's immediate. -/

namespace Sys2Proof

/-- The operands of `i` fit their fields: "imm8 is an unsigned 8-bit value" (R301; log entry 13).
A CONST with 10 < k < 256 is well formed and raises BAD_OPERAND when it runs (R306). -/
def Instr.wellFormed : Instr → Bool
  | .const _ k => decide (k < 256)
  | .nop | .clr _ | .copy _ _ | .setw _ | .setlen _ | .clrerr | .add _ _ _ | .sub _ _ _
  | .mul _ _ _ | .div _ _ _ _ | .mod _ _ _ | .mulmod _ _ _ _ | .cmp _ _ | .tstz _ => true

end Sys2Proof
end

