-- ==== Sys2Proof/Decode.lean ====
section
/-! DEFINITION. The decoder and the encoder of command words (30_encoding.md R300 to R307). -/

namespace Sys2Proof

/-- Why a word or a byte string is no command. -/
inductive Reject where
  /-- The op field is in no row of the opcode map (R305, first two items). -/
  | unassignedOpcode (op : BitVec 8)
  /-- The op field is in the map, but a must-be-zero field holds a non-zero bit (R305, third item). -/
  | mustBeZeroSet (op : BitVec 8)
  /-- Not exactly one whole 32-bit word (R307). -/
  | notOneWord
  deriving DecidableEq, Repr

/-! ### Fields (R300) -/

/-- A 4-bit register field as a register number (R301). -/
def regOfBits (b : BitVec 4) : RegIx := ⟨b.toNat, b.isLt⟩

/-- A register number as a 4-bit field (R301). -/
def bitsOfReg (r : RegIx) : BitVec 4 := BitVec.ofNat 4 r.val

def opField (w : Word) : BitVec 8 := w.extractLsb' 24 8
def rdField (w : Word) : BitVec 4 := w.extractLsb' 20 4
def rs1Field (w : Word) : BitVec 4 := w.extractLsb' 16 4
def rs2Field (w : Word) : BitVec 4 := w.extractLsb' 12 4
def rs3Field (w : Word) : BitVec 4 := w.extractLsb' 8 4
def imm8Field (w : Word) : BitVec 8 := w.extractLsb' 0 8

/-- A word from its six fields, op in bits 31:24 down to imm8 in bits 7:0 (R300). -/
def mkWord (op : BitVec 8) (rd rs1 rs2 rs3 : BitVec 4) (imm8 : BitVec 8) : Word :=
  op ++ rd ++ rs1 ++ rs2 ++ rs3 ++ imm8

/-! ### The opcode map (R304) -/

/-- One row of the opcode map: what must match under which mask, and the command the fields spell. -/
structure Row where
  pattern : Word
  mask : Word
  build : Word → Instr

/-- The complete opcode map, in its order (R304). -/
def opcodeMap : List Row := [
  ⟨0x01000000, 0xFFFFFFFF, fun _ => .nop⟩,
  ⟨0x02000000, 0xFF0FFFFF, fun w => .clr (regOfBits (rdField w))⟩,
  ⟨0x03000000, 0xFF00FFFF, fun w => .copy (regOfBits (rdField w)) (regOfBits (rs1Field w))⟩,
  ⟨0x04000000, 0xFF0FFF00, fun w => .const (regOfBits (rdField w)) (imm8Field w).toNat⟩,
  ⟨0x05000000, 0xFF0FFFFF, fun w => .setw (regOfBits (rdField w))⟩,
  ⟨0x06000000, 0xFF0FFFFF, fun w => .setlen (regOfBits (rdField w))⟩,
  ⟨0x07000000, 0xFFFFFFFF, fun _ => .clrerr⟩,
  ⟨0x10000000, 0xFF000FFF, fun w =>
    .add (regOfBits (rdField w)) (regOfBits (rs1Field w)) (regOfBits (rs2Field w))⟩] ++ [
  ⟨0x11000000, 0xFF000FFF, fun w =>
    .sub (regOfBits (rdField w)) (regOfBits (rs1Field w)) (regOfBits (rs2Field w))⟩,
  ⟨0x12000000, 0xFF000FFF, fun w =>
    .mul (regOfBits (rdField w)) (regOfBits (rs1Field w)) (regOfBits (rs2Field w))⟩,
  ⟨0x13000000, 0xFF0000FF, fun w =>
    .div (regOfBits (rdField w)) (regOfBits (rs1Field w)) (regOfBits (rs2Field w))
      (regOfBits (rs3Field w))⟩,
  ⟨0x14000000, 0xFF000FFF, fun w =>
    .mod (regOfBits (rdField w)) (regOfBits (rs1Field w)) (regOfBits (rs2Field w))⟩,
  ⟨0x15000000, 0xFF0000FF, fun w =>
    .mulmod (regOfBits (rdField w)) (regOfBits (rs1Field w)) (regOfBits (rs2Field w))
      (regOfBits (rs3Field w))⟩,
  ⟨0x20000000, 0xFFF00FFF, fun w => .cmp (regOfBits (rs1Field w)) (regOfBits (rs2Field w))⟩,
  ⟨0x21000000, 0xFFF0FFFF, fun w => .tstz (regOfBits (rs1Field w))⟩]

/-- A word spells the row's command when `(w & mask) = match` (R303). -/
def Row.spells (r : Row) (w : Word) : Bool := w &&& r.mask == r.pattern

/-- The op field of some row, whatever the must-be-zero fields hold. -/
def opcodeAssigned (w : Word) : Bool := opcodeMap.any fun r => opField w == opField r.pattern

/-- Decoding, total on all words (R303); every other word is illegal (R305). -/
def decode (w : Word) : Except Reject Instr :=
  match opcodeMap.find? (·.spells w) with
  | some r => .ok (r.build w)
  | none =>
    .error (if opcodeAssigned w then .mustBeZeroSet (opField w) else .unassignedOpcode (opField w))

/-- A word from its four byte lanes, lane 0 first (20_memory.md R211). -/
def wordOfLanes (b0 b1 b2 b3 : Byte) : Word := b3 ++ b2 ++ b1 ++ b0

/-- Decoding of the bytes of one bus write, total on any byte string: "A decoder always receives a
whole word" (R307). -/
def decodeBytes : List Byte → Except Reject Instr
  | [b0, b1, b2, b3] => decode (wordOfLanes b0 b1 b2 b3)
  | _ => .error .notOneWord

/-- What the decoder reads from a table row's bits (bit 0 the least significant, bits above `nbits`
zero); a command word is 32 bits (R307), so more bits are refused. -/
def decodeTableWord (nbits w : Nat) : Option Instr :=
  if nbits ≤ 32 then (decode (BitVec.ofNat 32 (w % 2 ^ nbits))).toOption else none

/-! ### The encoder (R300, R304) -/

/-- The command word of `i`; unused fields are zero (R302). -/
def encode : Instr → Word
  | .nop => mkWord 0x01 0 0 0 0 0
  | .clr rd => mkWord 0x02 (bitsOfReg rd) 0 0 0 0
  | .copy rd rs1 => mkWord 0x03 (bitsOfReg rd) (bitsOfReg rs1) 0 0 0
  | .const rd k => mkWord 0x04 (bitsOfReg rd) 0 0 0 (BitVec.ofNat 8 k)
  | .setw rd => mkWord 0x05 (bitsOfReg rd) 0 0 0 0
  | .setlen rd => mkWord 0x06 (bitsOfReg rd) 0 0 0 0
  | .clrerr => mkWord 0x07 0 0 0 0 0
  | .add rd rs1 rs2 => mkWord 0x10 (bitsOfReg rd) (bitsOfReg rs1) (bitsOfReg rs2) 0 0
  | .sub rd rs1 rs2 => mkWord 0x11 (bitsOfReg rd) (bitsOfReg rs1) (bitsOfReg rs2) 0 0
  | .mul rd rs1 rs2 => mkWord 0x12 (bitsOfReg rd) (bitsOfReg rs1) (bitsOfReg rs2) 0 0
  | .div rd rs1 rs2 rs3 =>
    mkWord 0x13 (bitsOfReg rd) (bitsOfReg rs1) (bitsOfReg rs2) (bitsOfReg rs3) 0
  | .mod rd rs1 rs2 => mkWord 0x14 (bitsOfReg rd) (bitsOfReg rs1) (bitsOfReg rs2) 0 0
  | .mulmod rd rs1 rs2 rs3 =>
    mkWord 0x15 (bitsOfReg rd) (bitsOfReg rs1) (bitsOfReg rs2) (bitsOfReg rs3) 0
  | .cmp rs1 rs2 => mkWord 0x20 0 (bitsOfReg rs1) (bitsOfReg rs2) 0 0
  | .tstz rs1 => mkWord 0x21 0 (bitsOfReg rs1) 0 0 0

/-- The one word that is recognised at issue, not at the completion step (R303, 60_exceptions.md R609). -/
def clrerrWord : Word := 0x07000000

/-! ### Assembler text (R320) -/

/-- `r0` to `r15`. -/
def regName (r : RegIx) : String := "r" ++ toString r.val

/-- A command as the assembler writes it, operands in the order of R320. -/
def assembly : Instr → String
  | .nop => "NOP"
  | .clr rd => "CLR " ++ regName rd
  | .copy rd rs1 => "COPY " ++ regName rd ++ ", " ++ regName rs1
  | .const rd k => "CONST " ++ regName rd ++ ", #" ++ toString k
  | .setw rd => "SETW " ++ regName rd
  | .setlen rd => "SETLEN " ++ regName rd
  | .clrerr => "CLRERR"
  | .add rd rs1 rs2 => "ADD " ++ regName rd ++ ", " ++ regName rs1 ++ ", " ++ regName rs2
  | .sub rd rs1 rs2 => "SUB " ++ regName rd ++ ", " ++ regName rs1 ++ ", " ++ regName rs2
  | .mul rd rs1 rs2 => "MUL " ++ regName rd ++ ", " ++ regName rs1 ++ ", " ++ regName rs2
  | .div rd rs1 rs2 rs3 =>
    "DIV " ++ regName rd ++ ", " ++ regName rs3 ++ ", " ++ regName rs1 ++ ", " ++ regName rs2
  | .mod rd rs1 rs2 => "MOD " ++ regName rd ++ ", " ++ regName rs1 ++ ", " ++ regName rs2
  | .mulmod rd rs1 rs2 rs3 =>
    "MULMOD " ++ regName rd ++ ", " ++ regName rs1 ++ ", " ++ regName rs2 ++ ", " ++ regName rs3
  | .cmp rs1 rs2 => "CMP " ++ regName rs1 ++ ", " ++ regName rs2
  | .tstz rs1 => "TSTZ " ++ regName rs1

end Sys2Proof
end

