-- ==== Sys2Proof/Machine/State.lean ====
section
/-! DEFINITION. The state of the block and its host (10_state.md R100 to R123), the reasons a step can stop,
and the state after reset. -/

namespace Sys2Proof.Machine

/-- A big register (10_state.md R100). -/
structure BigReg where
  /-- `LEN`, "a natural number with 0 ≤ LEN[i] ≤ MAX_LIMBS". -/
  len : Nat
  /-- The `MAX_LIMBS` stored limbs, least significant first. -/
  limbs : List Word
  /-- `DIRTY`: a host write has reached the limbs since the last normalised write (R106). -/
  dirty : Bool
  deriving DecidableEq, Repr

/-- The comparator outputs, one bit per named predicate (10_state.md R113). -/
structure Flags where
  eq : Bool
  lt : Bool
  gt : Bool
  le : Bool
  ge : Bool
  z : Bool
  nz : Bool
  deriving DecidableEq, Repr

/-- The errors a command can raise (60_exceptions.md R600); code 0, NONE, is `none` of `Option ErrCode`, and the
reserved codes 7 to 15 do not exist (R112: "never produced"). -/
inductive ErrCode where
  | illegalOp
  | badOperand
  | dirtyOperand
  | divZero
  | subUnderflow
  | capacity
  deriving DecidableEq, Repr

/-- What the outside world does to the block, one event at a time (00_scope.md R16, R21; log entry 1). -/
inductive HostEvent where
  /-- `MemRead(off, width)`, the width in bytes. -/
  | read (width : Nat) (off : Offset)
  /-- `MemWrite(off, width, v)`, the width in bytes. -/
  | write (width : Nat) (off : Offset) (v : Word)
  /-- `WAIT`: repeat `MemRead(0x004, 4)` until BUSY = 0 (30_encoding.md R321; log entry 8). -/
  | poll
  /-- The reset event (70_reset_and_hazards.md R700; log entry 10). -/
  | reset
  deriving DecidableEq, Repr

/-- The block's answer to a legal host access (log entry 9). -/
inductive Reply where
  /-- A read's 32-bit word. -/
  | data (v : Word)
  /-- A write has taken place: it was stored, issued, dropped, rejected or ignored. -/
  | done
  deriving DecidableEq, Repr

/-- Why the machine stops with a fault. -/
inductive Fault where
  /-- Raised by a host access of a width other than 4 bytes or at an offset with bits [1:0] ≠ 00:
  "A model faults the host program that makes such an access" (20_memory.md R202; log entry 6). Safe. -/
  | busError (width : Nat) (off : Offset)
  deriving DecidableEq, Repr

/-- Why the model gives a step no meaning. -/
inductive Refusal where
  /-- A command whose meaning is not written yet; raised by no arm of `exec`. Safe. -/
  | notModelled (mnemonic : String)
  deriving DecidableEq, Repr

/-- The complete architectural state (10_state.md R122), then the model's own fields. -/
structure State where
  /-- `CAP` = `MAX_LIMBS`, constant (R111, 00_scope.md R8; log entry 4). -/
  maxLimbs : Nat
  /-- `r0` to `r15`: LEN, limb and DIRTY (R100). -/
  regs : Vector BigReg 16
  /-- `FLAGS` (R113). -/
  flags : Flags
  /-- `DATA` (R114). -/
  data : Word
  /-- `STATUS.ERR` (R112). -/
  err : Option ErrCode
  /-- `STATUS.OVR` (R112). -/
  ovr : Bool
  /-- `STATUS.REJ` (R112). -/
  rej : Bool
  /-- `PEND`, the pending command word (R120). -/
  pend : Option Word
  /-- The model's own: host events that still go before the pending completion step (log entry 2). -/
  wait : Nat
  /-- The model's own: the host's events to come, oldest first (log entry 1). -/
  host : List HostEvent
  /-- The model's own: the answer to the latest host access (log entry 9). -/
  bus : Option Reply
  /-- The model's own: how many free values have been drawn (log entry 3). -/
  draws : Nat
  deriving DecidableEq, Repr

/-- The outcome of a command or a step. -/
abbrev Result := Host.Outcome State Fault Refusal

/-- A register holding 0, clean (R123). -/
def BigReg.zero (maxLimbs : Nat) : BigReg :=
  { len := 0, limbs := List.replicate maxLimbs 0, dirty := false }

/-- Every comparator bit 0 (R123). -/
def Flags.zero : Flags :=
  { eq := false, lt := false, gt := false, le := false, ge := false, z := false, nz := false }

/-- The state after reset of a block with `maxLimbs` limbs a register (R123). -/
def State.resetWith (maxLimbs : Nat) : State :=
  { maxLimbs := maxLimbs
    regs := Vector.replicate 16 (BigReg.zero maxLimbs)
    flags := Flags.zero
    data := 0
    err := none
    ovr := false
    rej := false
    pend := none
    wait := 0
    host := []
    bus := none
    draws := 0 }

/-- The machine right after reset, with the spec's default `MAX_LIMBS` (R123, 00_scope.md R8). -/
def State.reset : State := State.resetWith Config.defaultMaxLimbs

end Sys2Proof.Machine
end

