-- ==== Sys2Proof/Machine/Ops.lean ====
section
/-! DEFINITION. The shared operations on the state: registers (10_state.md R101 to R106), raising an error and
returning from it (60_exceptions.md R602, R603, R609), and what a CMD write can do (R605 to R608). -/

namespace Sys2Proof.Machine

/-! ### Big registers -/

/-- `limb[k]` of a register; 0 above the stored limbs. -/
def BigReg.limb (r : BigReg) (k : Nat) : Word := r.limbs.getD k 0

/-- The limbs that count: those at index < LEN (10_state.md R101). -/
def BigReg.live (r : BigReg) : List Word := r.limbs.take r.len

/-- `val(i)`, the value of a register (10_state.md R101). -/
def BigReg.val (r : BigReg) : Nat := limbsVal r.live

/-- What a normalised write of `v` leaves in a register of `maxLimbs` limbs (10_state.md R104). -/
def BigReg.ofNat (maxLimbs v : Nat) : BigReg :=
  { len := nlimbs v, limbs := limbsOf maxLimbs v, dirty := false }

/-- Register `i`. -/
def State.reg (s : State) (i : RegIx) : BigReg := s.regs.get i

/-- The state with register `i` replaced. -/
def State.setReg (s : State) (i : RegIx) (r : BigReg) : State :=
  { s with regs := s.regs.set i.val r i.isLt }

/-- The normalised write `x[d] <- v` (10_state.md R104). -/
def State.writeReg (s : State) (d : RegIx) (v : Nat) : State :=
  s.setReg d (BigReg.ofNat s.maxLimbs v)

/-- A host write of limb `k` of register `i`: the limb is stored, DIRTY is set, LEN stays (20_memory.md R205). -/
def State.writeLimb (s : State) (i : RegIx) (k : Nat) (v : Word) : State :=
  s.setReg i { s.reg i with limbs := (s.reg i).limbs.set k v, dirty := true }

/-- `STATUS.BUSY`: PEND holds a word (10_state.md R120). -/
def State.busy (s : State) : Bool := s.pend.isSome

/-! ### Errors -/

/-- `raise E`: ERR gets the code and nothing else is written, for every command and every error
(60_exceptions.md R602, R603, R610; 00_scope.md R17). The BUSY half of R602 is the completion step's. That ERR is 0
before holds on every state of the invariant (log entry 12). -/
def raise (e : ErrCode) (s : State) : Result := .next { s with err := some e }

/-- The return from an error: ERR, OVR and REJ become 0 (60_exceptions.md R609, R611). -/
def clearErrors (s : State) : State := { s with err := none, ovr := false, rej := false }

/-- The code of ERR (60_exceptions.md R600). -/
def errCode : Option ErrCode → BitVec 4
  | none => 0
  | some .illegalOp => 1
  | some .badOperand => 2
  | some .dirtyOperand => 3
  | some .divZero => 4
  | some .subUnderflow => 5
  | some .capacity => 6

/-! ### The command path -/

/-- A host write is dropped because BUSY = 1 (60_exceptions.md R607). -/
def overrun (s : State) : State := { s with ovr := true }

/-- A command is rejected because an error is pending (60_exceptions.md R608). -/
def reject (s : State) : State := { s with rej := true }

/-- A command is accepted (60_exceptions.md R606). The number of host events that go before its completion step
is drawn afresh (log entry 2). -/
def accept (w : Word) (s : State) : State :=
  { s with pend := some w, wait := Config.latency s.draws, draws := s.draws + 1 }

/-- PEND <- none, so BUSY = 0 (60_exceptions.md R605). -/
def finish (s : State) : State := { s with pend := none, wait := 0 }

/-- The reset event: every piece of the spec's state takes its reset value, and a pending command is
discarded (70_reset_and_hazards.md R700). MAX_LIMBS is a constant of the block; the host's events to come and
the count of drawn values are not the block's (log entry 10). -/
def resetBlock (s : State) : State :=
  { State.resetWith s.maxLimbs with host := s.host, draws := s.draws }

/-! ### Outcomes -/

/-- `f` applied to the next state; a fault or a refusal stays. -/
def andThen (r : Result) (f : State → State) : Result :=
  match r with
  | .next s => .next (f s)
  | .fault e => .fault e
  | .refused e => .refused e

end Sys2Proof.Machine
end

