-- ==== Sys2Proof/Machine/Flags.lean ====
section
/-! DEFINITION. Every computation of the FLAGS register (10_state.md R113, 41_comparator.md R420, R424). -/

namespace Sys2Proof.Machine

/-- What CMP writes for the comparator's answer; Z and NZ are unchanged (41_comparator.md R420). -/
def Flags.withComparison (f : Flags) (c : Ordering) : Flags :=
  { f with
    eq := c == .eq
    lt := c == .lt
    gt := c == .gt
    le := c != .gt
    ge := c != .lt }

/-- What TSTZ writes for "LEN = 0"; bits 4:0 are unchanged (41_comparator.md R424). -/
def Flags.withZeroTest (f : Flags) (isZero : Bool) : Flags :=
  { f with z := isZero, nz := !isZero }

end Sys2Proof.Machine
end

