-- ==== Sys2Proof/Machine/Operands.lean ====
section
/-! DEFINITION. How a command reads its operands: big registers and their DIRTY bits, the constant ROM, DATA
(10_state.md R106, R107, R114, R118; 30_encoding.md R301). All reads are made before any write (00_scope.md R18). -/

namespace Sys2Proof.Machine

/-- `LEN[i]`. -/
def State.len (s : State) (i : RegIx) : Nat := (s.reg i).len

/-- `DIRTY[i]`. -/
def State.dirty (s : State) (i : RegIx) : Bool := (s.reg i).dirty

/-- The limbs of source register `i` that count. -/
def State.live (s : State) (i : RegIx) : List Word := (s.reg i).live

/-- `x[i]`: source register `i` as a natural number (00_scope.md R14). -/
def State.val (s : State) (i : RegIx) : Nat := (s.reg i).val

/-- Some source register is dirty, so the command raises DIRTY_OPERAND (10_state.md R106). -/
def State.anyDirty (s : State) (sources : List RegIx) : Bool := sources.any fun i => s.dirty i

/-- The constant ROM: the values 0 to 10, one entry per value (10_state.md R118). -/
def constantRom : List Nat := [0, 1, 2, 3, 4, 5, 6, 7, 8, 9, 10]

/-- DATA as an operand, zero-extended (40_representation.md R406, R408). -/
def State.dataOperand (s : State) : Nat := s.data.toNat

end Sys2Proof.Machine
end

