-- ==== Sys2Proof/Machine/Comparator.lean ====
section
/-! DEFINITION. The comparator, CMP and TSTZ (41_comparator.md R420 to R425). -/

namespace Sys2Proof.Machine

/-- The limb-by-limb comparison from index n-1 down to 0; the first mismatch decides (R421). -/
def compareDown (a b : List Word) : Nat → Ordering
  | 0 => .eq
  | k + 1 =>
    if a.getD k 0 < b.getD k 0 then .lt
    else if b.getD k 0 < a.getD k 0 then .gt
    else compareDown a b k

/-- `compare`: unequal lengths decide, equal lengths compare from the most significant limb down (R421). -/
def compareLimbs (a b : List Word) : Ordering :=
  if a.length < b.length then .lt
  else if b.length < a.length then .gt
  else compareDown a b a.length

/-- `CMP rs1, rs2` (R420). -/
def execCmp (rs1 rs2 : RegIx) (s : State) : Result :=
  if s.anyDirty [rs1, rs2] then raise .dirtyOperand s
  else .next { s with flags := s.flags.withComparison (compareLimbs (s.live rs1) (s.live rs2)) }

/-- `TSTZ rs1` (R424). -/
def execTstz (rs1 : RegIx) (s : State) : Result :=
  if s.anyDirty [rs1] then raise .dirtyOperand s
  else .next { s with flags := s.flags.withZeroTest (s.len rs1 == 0) }

end Sys2Proof.Machine
end

