-- ==== Sys2Proof/Machine/AddSub.lean ====
section
/-! DEFINITION. The limb adder with carry, the limb subtractor with borrow, ADD and SUB
(42_add_sub.md R440 to R449). The carry is the true carry of the 33-bit sum (R442, 90_conflicts.md C1) and the
borrow-in is exact (R447). -/

namespace Sys2Proof.Machine

/-- The adder's loop over `n` positions with carry-in `c`, an absent limb counting as 0; a final
carry appends one limb holding 1 (R441). -/
def addLoop : Nat → Nat → List Word → List Word → List Word
  | 0, c, _, _ => if c = 1 then [1] else []
  | n + 1, c, a, b =>
    let t := c + (a.headD 0).toNat + (b.headD 0).toNat
    BitVec.ofNat 32 t :: addLoop n (t / radix) a.tail b.tail

/-- `adder`: the sum's limbs (R441). -/
def adder (a b : List Word) : List Word := addLoop (max a.length b.length) 0 a b

/-- The subtractor's loop over the minuend's limbs with borrow `c`; `borrow_in` is exact, 33 bits (R447). -/
def subLoop : Nat → List Word → List Word → List Word
  | _, [], _ => []
  | c, a :: as, b =>
    let borrowIn := c + (b.headD 0).toNat
    (a - BitVec.ofNat 32 borrowIn) :: subLoop (if a.toNat < borrowIn then 1 else 0) as b.tail

/-- `subtractor`: the difference's limbs, trimmed (R447). -/
def subtractor (a b : List Word) : List Word := trimLimbs (subLoop 0 a b)

/-- `ADD rd, rs1, rs2` (R440). -/
def execAdd (rd rs1 rs2 : RegIx) (s : State) : Result :=
  if s.anyDirty [rs1, rs2] then raise .dirtyOperand s
  else
    let sum := adder (s.live rs1) (s.live rs2)
    if s.maxLimbs < sum.length then raise .capacity s
    else .next (s.writeReg rd (limbsVal sum))

/-- `SUB rd, rs1, rs2`: a minuend less than the subtrahend is a checked error (R446, 90_conflicts.md C5). -/
def execSub (rd rs1 rs2 : RegIx) (s : State) : Result :=
  if s.anyDirty [rs1, rs2] then raise .dirtyOperand s
  else if compareLimbs (s.live rs1) (s.live rs2) = .lt then raise .subUnderflow s
  else .next (s.writeReg rd (limbsVal (subtractor (s.live rs1) (s.live rs2))))

end Sys2Proof.Machine
end

