-- ==== Sys2Proof/Machine/Divide.lean ====
section
/-! DEFINITION. The long divider and DIV (44_divide.md R480 to R491): short division, and Knuth's Algorithm D with
add-back. The architectural result is the floor quotient and the remainder (R481). -/

namespace Sys2Proof.Machine

/-- Case 3, a one-limb divisor `d`: single-pass division from the most significant limb down, the
running remainder carried into the next limb; quotient limbs and remainder (R484). -/
def shortDiv (d : Nat) : List Word → List Word × Nat
  | [] => ([], 0)
  | l :: ls =>
    let upper := shortDiv d ls
    let cur := upper.2 * radix + l.toNat
    (BitVec.ofNat 32 (cur / d) :: upper.1, cur % d)

/-- The refinement of a trial digit: while rhat < 2^32 and qhat·v[n-2] > rhat·2^32 + u[jj+n-2], take 1
from qhat and add v[n-1] to rhat (R487). A pass needs qhat > 0 and lowers it, so `qhat` passes suffice. -/
def refineTrial (vTop vNext uNext : Nat) : Nat → Nat → Nat → Nat × Nat
  | 0, qhat, rhat => (qhat, rhat)
  | fuel + 1, qhat, rhat =>
    if rhat < radix ∧ rhat * radix + uNext < qhat * vNext then
      refineTrial vTop vNext uNext fuel (qhat - 1) (rhat + vTop)
    else (qhat, rhat)

/-- The trial quotient digit: the two-limb by one-limb estimate, clamped to 2^32 - 1 (R486). -/
def clampedTrial (num vTop : Nat) : Nat := min (num / vTop) (radix - 1)

/-- The trial digit after the clamp and the refinement (R486, R487). -/
def trialDigit (num vTop vNext uNext : Nat) : Nat :=
  let qhat := clampedTrial num vTop
  (refineTrial vTop vNext uNext qhat qhat (num - qhat * vTop)).1

/-- Multiply, compare, add back at most once, subtract: the digit and the new window (R488). -/
def correctDigit (qhat window divisor : Nat) : Nat × Nat :=
  if window < qhat * divisor then (qhat - 1, window - (qhat * divisor - divisor))
  else (qhat, window - qhat * divisor)

/-- One pass of the quotient loop at position `jj`: the digit, and the dividend with its window
replaced (R486 to R488). -/
def knuthDigit (v : List Word) (jj : Nat) (u : List Word) : Nat × List Word :=
  let n := v.length
  let num := (u.getD (jj + n) 0).toNat * radix + (u.getD (jj + n - 1) 0).toNat
  let qhat := trialDigit num (v.getD (n - 1) 0).toNat (v.getD (n - 2) 0).toNat
    (u.getD (jj + n - 2) 0).toNat
  let corrected := correctDigit qhat (limbsVal ((u.drop jj).take (n + 1))) (limbsVal v)
  (corrected.1, u.take jj ++ limbsOf (n + 1) corrected.2 ++ u.drop (jj + n + 1))

/-- The quotient loop for positions count-1 down to 0: the quotient limbs and what is left of the
dividend (R486 to R489). -/
def knuthLoop (v : List Word) : Nat → List Word → List Word × List Word
  | 0, u => ([], u)
  | jj + 1, u =>
    let pass := knuthDigit v jj u
    let lower := knuthLoop v jj pass.2
    (lower.1 ++ [BitVec.ofNat 32 pass.1], lower.2)

/-- Case 4, a divisor of n ≥ 2 limbs: normalise by 2^s, divide, undo the normalisation (R485, R489).
The dividend is always padded to la + 1 limbs. -/
def knuthDiv (a b : List Word) : Nat × Nat :=
  let n := b.length
  let s := clz32 (b.getD (n - 1) 0)
  let v := limbsOf n (limbsVal b * 2 ^ s)
  let u := limbsOf (a.length + 1) (limbsVal a * 2 ^ s)
  let loop := knuthLoop v (a.length - n + 1) u
  (limbsVal loop.1, limbsVal (loop.2.take n) / 2 ^ s)

/-- `divider`: the case dispatch for a non-zero divisor, quotient and remainder (R482, R483, 90_conflicts.md C4). -/
def divider (a b : List Word) : Nat × Nat :=
  if compareLimbs a b = .lt then (0, limbsVal a)
  else if b.length = 1 then
    let short := shortDiv (b.getD 0 0).toNat a
    (limbsVal short.1, short.2)
  else knuthDiv a b

/-- `DIV`: quotient to rd, remainder to rs3; rd = rs3 is BAD_OPERAND, a zero divisor DIV_ZERO, 0 ÷ 0
too (R480, 90_conflicts.md C3). -/
def execDiv (rd rs1 rs2 rs3 : RegIx) (s : State) : Result :=
  if rd = rs3 then raise .badOperand s
  else if s.anyDirty [rs1, rs2] then raise .dirtyOperand s
  else if s.len rs2 = 0 then raise .divZero s
  else
    let qr := divider (s.live rs1) (s.live rs2)
    .next ((s.writeReg rd qr.1).writeReg rs3 qr.2)

end Sys2Proof.Machine
end

