-- ==== Sys2Proof/Machine/Multiply.lean ====
section
/-! DEFINITION. The schoolbook product array and MUL (43_multiply.md R460 to R464). The result is trimmed in full
(R462, 90_conflicts.md C2). -/

namespace Sys2Proof.Machine

/-- The carry "propagated forward one limb at a time" until it is absorbed (R461). -/
def rippleCarry : Nat → List Word → List Word
  | _, [] => []
  | c, l :: ls =>
    if c = 0 then l :: ls
    else BitVec.ofNat 32 (l.toNat + c) :: rippleCarry ((l.toNat + c) / radix) ls

/-- Adds a double-width partial product at the array's first limb: the low word there, the high word
and the carry one limb up, then the ripple (R461). -/
def addPartial (t : Nat) : List Word → List Word
  | lo :: hi :: rest =>
    let s0 := lo.toNat + t % radix
    let s1 := hi.toNat + t / radix + s0 / radix
    BitVec.ofNat 32 s0 :: BitVec.ofNat 32 s1 :: rippleCarry (s1 / radix) rest
  | array => array

/-- Adds a partial product at position `k` of the array. -/
def addPartialAt (k t : Nat) (array : List Word) : List Word :=
  array.take k ++ addPartial t (array.drop k)

/-- The inner loop: limb `x` at position `k` times every limb of `b` (R461). -/
def productRow (x : Word) : Nat → List Word → List Word → List Word
  | _, [], array => array
  | k, y :: ys, array => productRow x (k + 1) ys (addPartialAt k (x.toNat * y.toNat) array)

/-- The outer loop over the limbs of `a`, the first at position `k` (R461). -/
def productRows (b : List Word) : Nat → List Word → List Word → List Word
  | _, [], array => array
  | k, x :: xs, array => productRows b (k + 1) xs (productRow x k b array)

/-- `product_array`: la + lb limbs of zero, every limb pair added in, then the full trim (R461, R462). -/
def productArray (a b : List Word) : List Word :=
  trimLimbs (productRows b 0 a (List.replicate (a.length + b.length) 0))

/-- `MUL rd, rs1, rs2` (R460). -/
def execMul (rd rs1 rs2 : RegIx) (s : State) : Result :=
  if s.anyDirty [rs1, rs2] then raise .dirtyOperand s
  else
    let product := productArray (s.live rs1) (s.live rs2)
    if s.maxLimbs < product.length then raise .capacity s
    else .next (s.writeReg rd (limbsVal product))

end Sys2Proof.Machine
end

