-- ==== Sys2Proof/Machine/Modular.lean ====
section
/-! DEFINITION. The modular reduction pipeline: MOD and MULMOD (45_modular.md R510 to R515). -/

namespace Sys2Proof.Machine

/-- `MOD rd, rs1, rs2`: the remainder; the quotient is discarded (R510). -/
def execMod (rd rs1 rs2 : RegIx) (s : State) : Result :=
  if s.anyDirty [rs1, rs2] then raise .dirtyOperand s
  else if s.len rs2 = 0 then raise .divZero s
  else .next (s.writeReg rd (divider (s.live rs1) (s.live rs2)).2)

/-- `MULMOD rd, rs1, rs2, rs3`: the product array into the internal buffer, then the divider; the
product is no state and CAPACITY is never raised (R512, R513). -/
def execMulmod (rd rs1 rs2 rs3 : RegIx) (s : State) : Result :=
  if s.anyDirty [rs1, rs2, rs3] then raise .dirtyOperand s
  else if s.len rs3 = 0 then raise .divZero s
  else
    let product := productArray (s.live rs1) (s.live rs2)
    .next (s.writeReg rd (divider product (s.live rs3)).2)

end Sys2Proof.Machine
end

