-- ==== Sys2Proof/Machine/Representation.lean ====
section
/-! DEFINITION. CLR, COPY, CONST, SETW and SETLEN (40_representation.md R400 to R409). -/

namespace Sys2Proof.Machine

/-- `CLR rd`: x[rd] <- 0 (R400). -/
def execClr (rd : RegIx) (s : State) : Result := .next (s.writeReg rd 0)

/-- `COPY rd, rs1`: x[rd] <- x[rs1], from a clean source (R402). -/
def execCopy (rd rs1 : RegIx) (s : State) : Result :=
  if s.anyDirty [rs1] then raise .dirtyOperand s
  else .next (s.writeReg rd (s.val rs1))

/-- `CONST rd, #k`: x[rd] <- the ROM's entry k, for k ≤ 10 (R404). -/
def execConst (rd : RegIx) (k : Nat) (s : State) : Result :=
  match constantRom[k]? with
  | some v => .next (s.writeReg rd v)
  | none => raise .badOperand s

/-- `SETW rd`: x[rd] <- DATA (R406). -/
def execSetw (rd : RegIx) (s : State) : Result := .next (s.writeReg rd s.dataOperand)

/-- The register after SETLEN with length operand `n`: limbs at index ≥ n are 0, LEN is the trimmed
length, DIRTY is 0 (R408). -/
def BigReg.normalise (maxLimbs n : Nat) (r : BigReg) : BigReg :=
  { len := (trimLimbs (r.limbs.take n)).length
    limbs := r.limbs.take n ++ List.replicate (maxLimbs - n) 0
    dirty := false }

/-- `SETLEN rd`: normalise a register the host has written; n = DATA; there is no DIRTY check (R408). -/
def execSetlen (rd : RegIx) (s : State) : Result :=
  if s.maxLimbs < s.dataOperand then raise .badOperand s
  else .next (s.setReg rd ((s.reg rd).normalise s.maxLimbs s.dataOperand))

end Sys2Proof.Machine
end

