-- ==== Sys2Proof/Machine/System.lean ====
section
/-! DEFINITION. NOP and CLRERR (46_system.md R530, R531). -/

namespace Sys2Proof.Machine

/-- `NOP`: nothing; "the completion step only clears BUSY" (R530). -/
def execNop (s : State) : Result := .next s

/-- `CLRERR`: ERR <- 0, OVR <- 0, REJ <- 0 (R531). -/
def execClrerr (s : State) : Result := .next (clearErrors s)

end Sys2Proof.Machine
end

