-- ==== Sys2Proof/Machine/Dispatch.lean ====
section
/-! DEFINITION. One arm per command, each one call of its meaning (30_encoding.md R304). -/

namespace Sys2Proof.Machine

-- The effect of a decoded command on the state; PEND is the completion step's (60_exceptions.md R605).
def exec (i : Instr) (s : State) : Host.Outcome State Fault Refusal :=
  match i with
  | .nop => Sys2Proof.Machine.execNop s
  | .clr rd => Sys2Proof.Machine.execClr rd s
  | .copy rd rs1 => Sys2Proof.Machine.execCopy rd rs1 s
  | .const rd k => Sys2Proof.Machine.execConst rd k s
  | .setw rd => Sys2Proof.Machine.execSetw rd s
  | .setlen rd => Sys2Proof.Machine.execSetlen rd s
  | .clrerr => Sys2Proof.Machine.execClrerr s
  | .add rd rs1 rs2 => Sys2Proof.Machine.execAdd rd rs1 rs2 s
  | .sub rd rs1 rs2 => Sys2Proof.Machine.execSub rd rs1 rs2 s
  | .mul rd rs1 rs2 => Sys2Proof.Machine.execMul rd rs1 rs2 s
  | .div rd rs1 rs2 rs3 => Sys2Proof.Machine.execDiv rd rs1 rs2 rs3 s
  | .mod rd rs1 rs2 => Sys2Proof.Machine.execMod rd rs1 rs2 s
  | .mulmod rd rs1 rs2 rs3 => Sys2Proof.Machine.execMulmod rd rs1 rs2 rs3 s
  | .cmp rs1 rs2 => Sys2Proof.Machine.execCmp rs1 rs2 s
  | .tstz rs1 => Sys2Proof.Machine.execTstz rs1 s

end Sys2Proof.Machine
end

