-- ==== Sys2Proof/Machine/CommandPath.lean ====
section
/-! DEFINITION. The command path: what a CMD write does, and the completion step (60_exceptions.md R605 to R609). -/

namespace Sys2Proof.Machine

/-- `MemWrite(CMD, 4, w)`: dropped while BUSY (R607); CLRERR at once (R609); rejected while an error is
pending (R608); else accepted (R606). -/
def issue (w : Word) (s : State) : Result :=
  if s.busy then .next (overrun s)
  else if w = clrerrWord then exec .clrerr s
  else if s.err.isSome || s.ovr then .next (reject s)
  else .next (accept w s)

/-- What the pending word does at its completion step, before PEND is cleared: the command it
spells, or ILLEGAL_OP (R601, R605). -/
def runWord (w : Word) (s : State) : Result :=
  match decode w with
  | .ok i => exec i s
  | .error _ => raise .illegalOp s

/-- The completion step of the pending word `w` (R605, R606). -/
def completeWord (w : Word) (s : State) : Result := andThen (runWord w s) finish

end Sys2Proof.Machine
end

