-- ==== Sys2Proof/Machine/Bus.lean ====
section
/-! DEFINITION. The host register space: the map, reads and writes (20_memory.md R200 to R212; 10_state.md R111 to
R117). -/

namespace Sys2Proof.Machine

/-! ### The register map (R201) -/

/-- What stands at an offset of the host register space. -/
inductive Target where
  | cmd
  | status
  | data
  | flags
  | cap
  | dirty
  | len (i : RegIx)
  | limb (i : RegIx) (k : Nat)
  | reserved
  deriving DecidableEq, Repr

/-- The register map, for an aligned offset (R201). -/
def target (maxLimbs : Nat) (off : Offset) : Target :=
  let n := off.toNat
  if n = 0x00000 then .cmd
  else if n = 0x00004 then .status
  else if n = 0x00008 then .data
  else if n = 0x0000C then .flags
  else if n = 0x00010 then .cap
  else if n = 0x00014 then .dirty
  else if 0x00040 ≤ n ∧ n < 0x00080 then .len (Fin.ofNat 16 ((n - 0x40) / 4))
  else if 0x01000 ≤ n ∧ n < 0x11000 ∧ (n - 0x1000) % 0x1000 / 4 < maxLimbs then
    .limb (Fin.ofNat 16 ((n - 0x1000) / 0x1000)) ((n - 0x1000) % 0x1000 / 4)
  else .reserved

/-- A legal access: 32 bits wide, at an offset with bits [1:0] = 00 (R202). -/
def legalAccess (width : Nat) (off : Offset) : Bool := width == 4 && off.extractLsb' 0 2 == 0

/-- The offset at which the host reaches the block, for a host byte address and the platform's `BASE`;
`none` where the address is not the block's (R201; log entry 5). -/
def offsetOf (base addr : Nat) : Option Offset :=
  if base ≤ addr ∧ addr < base + 2 ^ 17 then some (BitVec.ofNat 17 (addr - base)) else none

/-! ### Register words -/

/-- `STATUS`: ERR in bits 11:8, REJ bit 2, OVR bit 1, BUSY bit 0 (10_state.md R112). -/
def State.statusWord (s : State) : Word :=
  (0 : BitVec 20) ++ errCode s.err ++ (0 : BitVec 5) ++ BitVec.ofBool s.rej ++ BitVec.ofBool s.ovr
    ++ BitVec.ofBool s.busy

/-- `FLAGS`: NZ Z GE LE GT LT EQ in bits 6:0 (10_state.md R113). -/
def Flags.word (f : Flags) : Word :=
  (0 : BitVec 25) ++ BitVec.ofBool f.nz ++ BitVec.ofBool f.z ++ BitVec.ofBool f.ge
    ++ BitVec.ofBool f.le ++ BitVec.ofBool f.gt ++ BitVec.ofBool f.lt ++ BitVec.ofBool f.eq

/-- A number from its bits, least significant first. -/
def bitsVal : List Bool → Nat
  | [] => 0
  | b :: bs => b.toNat + 2 * bitsVal bs

/-- `DIRTY`: bit i reads DIRTY[i], bits 31:16 read 0 (10_state.md R115). -/
def State.dirtyWord (s : State) : Word := BitVec.ofNat 32 (bitsVal (s.regs.toList.map (·.dirty)))

/-- `LEN[i]`: bits 10:0 read LEN[i], bits 31:11 read 0 (10_state.md R116). -/
def State.lenWord (s : State) (i : RegIx) : Word := (0 : BitVec 21) ++ BitVec.ofNat 11 (s.len i)

/-- The word a read gives while BUSY = 0 (R203 to R207). -/
def State.exactRead (s : State) : Target → Word
  | .cmd => 0
  | .status => s.statusWord
  | .data => s.data
  | .flags => s.flags.word
  | .cap => BitVec.ofNat 32 s.maxLimbs
  | .dirty => s.dirtyWord
  | .len i => s.lenWord i
  | .limb i k => (s.reg i).limb k
  | .reserved => 0

/-- The targets whose reads are open while BUSY = 1: FLAGS, DIRTY, LEN[i] and the limb windows (R208). -/
def Target.openWhileBusy : Target → Bool
  | .flags | .dirty | .len _ | .limb _ _ => true
  | .cmd | .status | .data | .cap | .reserved => false

/-- Byte `m` of register `i`'s window as a little-endian host sees it (R211, R212). -/
def State.windowByte (s : State) (i : RegIx) (m : Nat) : Byte := byteLane ((s.reg i).limb (m / 4)) (m % 4)

/-! ### Accesses -/

/-- A legal read: exact, or any value while BUSY = 1 (R208; log entry 3). Nothing else changes (R209). -/
def readTarget (t : Target) (s : State) : State :=
  if s.busy && t.openWhileBusy then
    { s with bus := some (.data (Config.freeWord s.draws)), draws := s.draws + 1 }
  else { s with bus := some (.data (s.exactRead t)) }

/-- A legal write of `v` (R203, R205 to R207); dropped with OVR while BUSY = 1 (60_exceptions.md R607), but not at
a reserved limb offset (log entry 15). -/
def writeTarget (t : Target) (v : Word) (s : State) : Result :=
  match t with
  | .cmd => issue v s
  | .data => .next (if s.busy then overrun s else { s with data := v })
  | .limb i k => .next (if s.busy then overrun s else s.writeLimb i k v)
  | .status | .flags | .cap | .dirty | .len _ | .reserved => .next s

/-- `MemRead(off, width)` (R202 to R208). -/
def hostRead (width : Nat) (off : Offset) (s : State) : Result :=
  if legalAccess width off then .next (readTarget (target s.maxLimbs off) s)
  else .fault (.busError width off)

/-- `MemWrite(off, width, v)` (R202 to R207); the write is answered when it is done (log entry 9). -/
def hostWrite (width : Nat) (off : Offset) (v : Word) (s : State) : Result :=
  if legalAccess width off then
    andThen (writeTarget (target s.maxLimbs off) v s) fun t => { t with bus := some .done }
  else .fault (.busError width off)

/-- One host event, on a state from whose queue it has been taken. A `WAIT` whose STATUS read gives
BUSY = 1 is put back to be repeated (30_encoding.md R321; log entry 8). -/
def hostEvent (e : HostEvent) (s : State) : Result :=
  match e with
  | .read width off => hostRead width off s
  | .write width off v => hostWrite width off v s
  | .poll =>
    let t := readTarget .status s
    .next (if s.busy then { t with host := .poll :: t.host } else t)
  | .reset => .next (resetBlock s)

/-! ### The step's parts -/

/-- The completion step is next: a command is pending, and its open latency has run out or the host
has nothing more to do (20_memory.md R215, 60_exceptions.md R606; log entry 2). -/
def State.completes (s : State) : Bool := s.busy && (s.wait == 0 || s.host.isEmpty)

/-- The block's turn or the host's (00_scope.md R21); with neither, the machine waits (log entry 7). -/
def turn (s : State) : Result :=
  if s.completes then
    match s.pend with
    | some w => completeWord w s
    | none => .next s
  else
    match s.host with
    | [] => .next s
    | e :: rest => hostEvent e { s with host := rest, wait := s.wait - 1 }

/-- `s` about to run the command word `w` at its very next step: pending with its latency run out,
or, for the CLRERR word, about to be written to CMD of an idle block (log entry 11). -/
def placeCommand (w : Word) (s : State) : State :=
  if w = clrerrWord then { s with pend := none, wait := 0, host := .write 4 0 w :: s.host }
  else { s with pend := some w, wait := 0 }

end Sys2Proof.Machine
end

