-- ==== Sys2Proof/Machine/Step.lean ====
section
/-! DEFINITION. One step of the machine, and the placing of a command for the next step. -/

namespace Sys2Proof.Machine

/-- One step: the completion step of the pending command, or the host's next event (00_scope.md R21). -/
def step (s : State) : Host.Outcome State Fault Refusal := turn s

/-- `s` with the command word of `nbits` bits placed where the next step runs it (log entry 11). -/
def State.withFetchWord (s : State) (nbits w : Nat) : State :=
  placeCommand (BitVec.ofNat 32 (w % 2 ^ nbits)) s

end Sys2Proof.Machine
end

