-- ==== Sys2Proof/Machine/Pseudo.lean ====
section
/-! DEFINITION. The pseudo-instructions and their expansion into host events (30_encoding.md R321). -/

namespace Sys2Proof.Machine

/-- A pseudo-instruction (R321). -/
inductive Pseudo where
  | mov (rd ra : RegIx)
  | li (rd : RegIx) (k : Word)
  | sqrmod (rd ra rm : RegIx)
  | wait
  | ldbig (rd : RegIx) (vs : List Word)
  deriving DecidableEq, Repr

/-- A command issued and waited for (R321, 70_reset_and_hazards.md R710). -/
def issueAndWait (i : Instr) : List HostEvent := [.write 4 0x000 (encode i), .poll]

/-- Limb writes of `vs` from offset `addr` upwards, one each 4 bytes (R321). Where the list is so long that an
offset leaves the block, the spec gives no effect; that write reaches no event, as any access outside the block
(DESIGN CHOICE, log entry 16). -/
def limbWrites (addr : Nat) : List Word → List HostEvent
  | [] => []
  | v :: vs => ((offsetOf 0 addr).map fun off => .write 4 off v).toList ++ limbWrites (addr + 4) vs

/-- The host's actions for a pseudo-instruction (R321). An LDBIG's length is written to DATA modulo 2^32 (log entry 16). -/
def Pseudo.expand : Pseudo → List HostEvent
  | .mov rd ra => issueAndWait (.copy rd ra)
  | .li rd k =>
    if k.toNat ≤ 10 then issueAndWait (.const rd k.toNat)
    else .write 4 0x008 k :: issueAndWait (.setw rd)
  | .sqrmod rd ra rm => issueAndWait (.mulmod rd ra ra rm)
  | .wait => [.poll]
  | .ldbig rd vs =>
    limbWrites (0x1000 + 0x1000 * rd.val) vs
      ++ .write 4 0x008 (BitVec.ofNat 32 vs.length) :: issueAndWait (.setlen rd)

end Sys2Proof.Machine
end

