-- ==== Sys2Proof/Safety.lean ====
section
/-! DEFINITION. What a safe run keeps, and the terms the claims are stated in: the invariant, the value a
register holds, what a step leaves alone, the tables of sources, destinations and errors. -/

namespace Sys2Proof.Machine

/-! ### The invariant -/

/-- The two clauses of the normalisation invariant (10_state.md R102). -/
structure BigReg.Normalised (maxLimbs : Nat) (r : BigReg) : Prop where
  top : r.len = 0 ∨ r.limb (r.len - 1) ≠ 0
  tail : ∀ k, r.len ≤ k → k < maxLimbs → r.limb k = 0

/-- A register stores `MAX_LIMBS` limbs, its LEN is in range (R100), and it is normalised while it is
not dirty (R102). -/
structure BigReg.Ok (maxLimbs : Nat) (r : BigReg) : Prop where
  len_le : r.len ≤ maxLimbs
  limbs_length : r.limbs.length = maxLimbs
  normalised : r.dirty = false → r.Normalised maxLimbs

/-- The comparator bits agree with each other (41_comparator.md R420, R424), as they do from reset on. -/
structure Flags.Legal (f : Flags) : Prop where
  le_iff : f.le = (f.lt || f.eq)
  ge_iff : f.ge = (f.gt || f.eq)
  one_of : (f.eq && f.lt) = false ∧ (f.eq && f.gt) = false ∧ (f.lt && f.gt) = false
  zero_test : (f.z && f.nz) = false

/-- What every reachable state satisfies. -/
structure State.Inv (s : State) : Prop where
  /-- The legal range of `MAX_LIMBS` (00_scope.md R8). -/
  cap_range : 20 ≤ s.maxLimbs ∧ s.maxLimbs ≤ 1024
  regs_ok : ∀ i, (s.reg i).Ok s.maxLimbs
  flags_legal : s.flags.Legal
  /-- A command was accepted with no error pending, nothing writes ERR or REJ while BUSY = 1, and
  the exact CLRERR word is never pending (60_exceptions.md R602, R606, R609). -/
  pending : ∀ w, s.pend = some w → s.err = none ∧ s.rej = false ∧ w ≠ 0x07000000
  /-- REJ = 1 only while ERR ≠ 0 or OVR = 1 (60_exceptions.md R608, R609). -/
  rejected : s.rej = true → s.err.isSome = true ∨ s.ovr = true
  /-- The model's own: only a pending command waits. -/
  idle_wait : s.pend = none → s.wait = 0

/-- A result is trustworthy only when ERR, OVR and REJ are 0 and no command is pending
(70_reset_and_hazards.md R712). -/
def State.trustworthy (s : State) : Bool := !s.busy && s.err.isNone && !s.ovr && !s.rej

/-! ### Terms of the claims -/

/-- Register `i` is as a normalised write of `v` leaves it (10_state.md R104), and its value is `v`. -/
structure State.Holds (s : State) (i : RegIx) (v : Nat) : Prop where
  len_eq : s.len i = nlimbs v
  limb_eq : ∀ k, k < s.maxLimbs → (s.reg i).limb k = limbAt k v
  clean : s.dirty i = false
  val_eq : s.val i = v

/-- `t` is `s` but for the registers in `ds`. -/
structure SameExcept (ds : List RegIx) (s t : State) : Prop where
  regs : ∀ i, i ∉ ds → t.reg i = s.reg i
  maxLimbs : t.maxLimbs = s.maxLimbs
  flags : t.flags = s.flags
  data : t.data = s.data
  err : t.err = s.err
  ovr : t.ovr = s.ovr
  rej : t.rej = s.rej
  pend : t.pend = s.pend
  wait : t.wait = s.wait
  host : t.host = s.host
  bus : t.bus = s.bus
  draws : t.draws = s.draws

/-- The registers a command writes (10_state.md R107). -/
def destinations : Instr → List RegIx
  | .nop | .clrerr | .cmp _ _ | .tstz _ => []
  | .clr rd | .const rd _ | .setw rd | .setlen rd | .copy rd _ | .add rd _ _ | .sub rd _ _
  | .mul rd _ _ | .mod rd _ _ | .mulmod rd _ _ _ => [rd]
  | .div rd _ _ rs3 => [rd, rs3]

/-- The registers a command reads (10_state.md R107); SETLEN reads the limbs of its rd. -/
def sources : Instr → List RegIx
  | .nop | .clrerr | .clr _ | .const _ _ | .setw _ => []
  | .setlen rd => [rd]
  | .copy _ rs1 | .tstz rs1 => [rs1]
  | .add _ rs1 rs2 | .sub _ rs1 rs2 | .mul _ rs1 rs2 | .mod _ rs1 rs2 | .cmp rs1 rs2
  | .div _ rs1 rs2 _ => [rs1, rs2]
  | .mulmod _ rs1 rs2 rs3 => [rs1, rs2, rs3]

/-- The table of errors (60_exceptions.md R601): a decoded command's condition for each error; ILLEGAL_OP is
an undecoded word's. -/
def Raises (s : State) : ErrCode → Instr → Prop
  | .illegalOp, _ => False
  | .badOperand, .const _ k => 10 < k
  | .badOperand, .setlen _ => s.maxLimbs < s.data.toNat
  | .badOperand, .div rd _ _ rs3 => rd = rs3
  | .badOperand, _ => False
  | .dirtyOperand, .copy _ rs1 => s.dirty rs1 = true
  | .dirtyOperand, .add _ rs1 rs2 => s.dirty rs1 = true ∨ s.dirty rs2 = true
  | .dirtyOperand, .sub _ rs1 rs2 => s.dirty rs1 = true ∨ s.dirty rs2 = true
  | .dirtyOperand, .mul _ rs1 rs2 => s.dirty rs1 = true ∨ s.dirty rs2 = true
  | .dirtyOperand, .div _ rs1 rs2 _ => s.dirty rs1 = true ∨ s.dirty rs2 = true
  | .dirtyOperand, .mod _ rs1 rs2 => s.dirty rs1 = true ∨ s.dirty rs2 = true
  | .dirtyOperand, .cmp rs1 rs2 => s.dirty rs1 = true ∨ s.dirty rs2 = true
  | .dirtyOperand, .mulmod _ rs1 rs2 rs3 =>
    s.dirty rs1 = true ∨ s.dirty rs2 = true ∨ s.dirty rs3 = true
  | .dirtyOperand, .tstz rs1 => s.dirty rs1 = true
  | .dirtyOperand, _ => False
  | .divZero, .div _ _ rs2 _ => s.len rs2 = 0
  | .divZero, .mod _ _ rs2 => s.len rs2 = 0
  | .divZero, .mulmod _ _ _ rs3 => s.len rs3 = 0
  | .divZero, _ => False
  | .subUnderflow, .sub _ rs1 rs2 => s.val rs1 < s.val rs2
  | .subUnderflow, _ => False
  | .capacity, .add _ rs1 rs2 => s.maxLimbs < nlimbs (s.val rs1 + s.val rs2)
  | .capacity, .mul _ rs1 rs2 => s.maxLimbs < nlimbs (s.val rs1 * s.val rs2)
  | .capacity, _ => False

/-- The order in which errors are reported (60_exceptions.md R604), first 1. -/
def ErrCode.rank : ErrCode → Nat
  | .illegalOp => 1
  | .badOperand => 2
  | .dirtyOperand => 3
  | .divZero => 4
  | .subUnderflow => 5
  | .capacity => 6

/-- The error a pending word raises by the table: ILLEGAL_OP when it spells no command, else a
condition of its command. -/
def WordRaises (s : State) (w : Word) (e : ErrCode) : Prop :=
  match decode w with
  | .ok i => Raises s e i
  | .error _ => e = .illegalOp

/-- A 4-bit field of a word, from bit `lo` up, as a register number (30_encoding.md R301). -/
def regAt (w : Word) (lo : Nat) : RegIx := Fin.ofNat 16 (w.toNat / 2 ^ lo)

/-- The host is about to act: an event is queued and the completion step is not next. -/
def State.HostTurn (s : State) (e : HostEvent) (rest : List HostEvent) : Prop :=
  s.completes = false ∧ s.host = e :: rest

/-- `s` after the host's event has been taken from the queue. -/
def State.taken (s : State) (rest : List HostEvent) : State := { s with host := rest, wait := s.wait - 1 }

/-- The two events that clear ERR, OVR and REJ: reset, and a write of exactly the CLRERR word to CMD
while BUSY = 0 (60_exceptions.md R609, 70_reset_and_hazards.md R700). -/
def State.ClearingEvent (s : State) : Prop :=
  ∃ rest, s.HostTurn .reset rest ∨ (s.pend = none ∧ s.HostTurn (.write 4 0 0x07000000) rest)

/-- An event that is no bus error (20_memory.md R202). -/
def HostEvent.legal : HostEvent → Bool
  | .read width off => legalAccess width off
  | .write width off _ => legalAccess width off
  | .poll | .reset => true

end Sys2Proof.Machine
end

