-- ==== Sys2Proof/Certificates/Slice0/Obligations.lean ====
section
/-! DEFINITION. The statements for the provers. Each docstring names the rule of the spec it formalises; a clause
that is the model's own choice names its log entry. -/

open Sys2Proof Sys2Proof.Machine

/-! ### Encoding -/

/-- For every well-formed command, every operand at every value: decoding its word gives it back
(30_encoding.md R300 to R304). -/
def Obligations.DecodeInvertsEncode : Prop :=
  ∀ i : Instr, i.wellFormed = true → decode (encode i) = .ok i

/-- Every word that decodes is the word of a well-formed command: no bit of it is dropped
(30_encoding.md R302, R303). -/
def Obligations.EncodeInvertsDecode : Prop :=
  ∀ (w : Word) (i : Instr), decode w = .ok i → i.wellFormed = true ∧ encode i = w

/-- The complete opcode map (R304): each row's match under its mask is exactly the words that decode to the
row's command, with the row's fields taken from bits 23:20, 19:16, 15:12, 11:8 and 7:0. -/
def Obligations.OpcodeMapSpellsEachCommand : Prop :=
  ∀ w : Word,
    (w &&& 0xFFFFFFFF = 0x01000000 ↔ decode w = .ok .nop)
    ∧ (w &&& 0xFF0FFFFF = 0x02000000 ↔ decode w = .ok (.clr (regAt w 20)))
    ∧ (w &&& 0xFF00FFFF = 0x03000000 ↔ decode w = .ok (.copy (regAt w 20) (regAt w 16)))
    ∧ (w &&& 0xFF0FFF00 = 0x04000000 ↔ decode w = .ok (.const (regAt w 20) (w.toNat % 256)))
    ∧ (w &&& 0xFF0FFFFF = 0x05000000 ↔ decode w = .ok (.setw (regAt w 20)))
    ∧ (w &&& 0xFF0FFFFF = 0x06000000 ↔ decode w = .ok (.setlen (regAt w 20)))
    ∧ (w &&& 0xFFFFFFFF = 0x07000000 ↔ decode w = .ok .clrerr)
    ∧ (w &&& 0xFF000FFF = 0x10000000 ↔
        decode w = .ok (.add (regAt w 20) (regAt w 16) (regAt w 12)))
    ∧ (w &&& 0xFF000FFF = 0x11000000 ↔
        decode w = .ok (.sub (regAt w 20) (regAt w 16) (regAt w 12)))
    ∧ (w &&& 0xFF000FFF = 0x12000000 ↔
        decode w = .ok (.mul (regAt w 20) (regAt w 16) (regAt w 12)))
    ∧ (w &&& 0xFF0000FF = 0x13000000 ↔
        decode w = .ok (.div (regAt w 20) (regAt w 16) (regAt w 12) (regAt w 8)))
    ∧ (w &&& 0xFF000FFF = 0x14000000 ↔
        decode w = .ok (.mod (regAt w 20) (regAt w 16) (regAt w 12)))
    ∧ (w &&& 0xFF0000FF = 0x15000000 ↔
        decode w = .ok (.mulmod (regAt w 20) (regAt w 16) (regAt w 12) (regAt w 8)))
    ∧ (w &&& 0xFFF00FFF = 0x20000000 ↔ decode w = .ok (.cmp (regAt w 16) (regAt w 12)))
    ∧ (w &&& 0xFFF0FFFF = 0x21000000 ↔ decode w = .ok (.tstz (regAt w 16)))

/-- Words written out from the encoding, one for each command, decode to the commands they stand for
(30_encoding.md R322 and the examples of R400 to R531). -/
def Obligations.ExampleWordsDecode : Prop :=
  decode 0x10312000 = .ok (.add 3 1 2) ∧ decode 0x13412500 = .ok (.div 4 1 2 5)
    ∧ decode 0x15001200 = .ok (.mulmod 0 0 1 2) ∧ decode 0x0420000A = .ok (.const 2 10)
    ∧ decode 0x20012000 = .ok (.cmp 1 2) ∧ decode 0x21030000 = .ok (.tstz 3)
    ∧ decode 0x02500000 = .ok (.clr 5) ∧ decode 0x03210000 = .ok (.copy 2 1)
    ∧ decode 0x05300000 = .ok (.setw 3) ∧ decode 0x06400000 = .ok (.setlen 4)
    ∧ decode 0x11312000 = .ok (.sub 3 1 2) ∧ decode 0x12312000 = .ok (.mul 3 1 2)
    ∧ decode 0x14312000 = .ok (.mod 3 1 2) ∧ decode 0x01000000 = .ok .nop
    ∧ decode 0x07000000 = .ok .clrerr

/-- The illegal words (R305): op 0x00, the unassigned ops, and an assigned op with a non-zero bit in a
must-be-zero field. Each raises ILLEGAL_OP at its completion step and writes nothing else. -/
def Obligations.IllegalWordsRaiseIllegalOp : Prop :=
  ∀ (w : Word) (s : State), s.pend = some w → s.completes = true →
    (w.toNat / 2 ^ 24 = 0x00
      ∨ (0x08 ≤ w.toNat / 2 ^ 24 ∧ w.toNat / 2 ^ 24 ≤ 0x0F)
      ∨ (0x16 ≤ w.toNat / 2 ^ 24 ∧ w.toNat / 2 ^ 24 ≤ 0x1F)
      ∨ (0x22 ≤ w.toNat / 2 ^ 24 ∧ w.toNat / 2 ^ 24 ≤ 0xFF)
      ∨ ∃ p ∈ ([(0x01, 0xFFFFFFFF), (0x02, 0xFF0FFFFF), (0x03, 0xFF00FFFF), (0x04, 0xFF0FFF00),
            (0x05, 0xFF0FFFFF), (0x06, 0xFF0FFFFF), (0x07, 0xFFFFFFFF), (0x10, 0xFF000FFF),
            (0x11, 0xFF000FFF), (0x12, 0xFF000FFF), (0x13, 0xFF0000FF), (0x14, 0xFF000FFF),
            (0x15, 0xFF0000FF), (0x20, 0xFFF00FFF), (0x21, 0xFFF0FFFF)] : List (Nat × Word)),
          w.toNat / 2 ^ 24 = p.1 ∧ w &&& (p.2 &&& 0x00FFFFFF) ≠ 0) →
    step s = .next { s with err := some .illegalOp, pend := none, wait := 0 }

/-! ### The command path -/

/-- Every command ends in a next state from every state: the block has no traps (60_exceptions.md R610). -/
def Obligations.EveryCommandCompletes : Prop :=
  ∀ (i : Instr) (s : State), ∃ t, exec i s = .next t

/-- A step runs the decoded command: when the pending word decodes to `i` and its latency has run out or
the host has nothing to do (the model's choice of the open moment, log entry 2), the step is `exec i`, and PEND is
then none (60_exceptions.md R605, R606). -/
def Obligations.CompletionStepRunsDecodedCommand : Prop :=
  ∀ (s t : State) (w : Word) (i : Instr), s.pend = some w → (s.wait = 0 ∨ s.host = []) →
    decode w = .ok i → exec i s = .next t → step s = .next { t with pend := none, wait := 0 }

/-- The command path as a whole (R605): the four branches of a CMD write, and the completion step. The fields
`wait`, `draws`, `host` and `bus` are the model's own (log entries 1, 2, 3, 9). -/
def Obligations.CommandPathIsRule605 : Prop :=
  (∀ (s : State) (w : Word) (rest : List HostEvent), s.HostTurn (.write 4 0 w) rest →
    (s.pend ≠ none → step s = .next { s.taken rest with ovr := true, bus := some .done })
    ∧ (s.pend = none → w = 0x07000000 →
        step s = .next { s.taken rest with err := none, ovr := false, rej := false, bus := some .done })
    ∧ (s.pend = none → w ≠ 0x07000000 → (s.err ≠ none ∨ s.ovr = true) →
        step s = .next { s.taken rest with rej := true, bus := some .done })
    ∧ (s.pend = none → w ≠ 0x07000000 → s.err = none → s.ovr = false →
        step s = .next { s.taken rest with
          pend := some w, wait := Config.latency s.draws, draws := s.draws + 1, bus := some .done }))
  ∧ ∀ (s : State) (w : Word), s.pend = some w → s.completes = true →
    (∀ r, decode w = .error r →
      step s = .next { s with err := some .illegalOp, pend := none, wait := 0 })
    ∧ ∀ i, decode w = .ok i →
      ∃ t, exec i s = .next t ∧ step s = .next { t with pend := none, wait := 0 }

/-- Overrun (R607): while BUSY = 1 a write to CMD, DATA or a limb window is dropped and sets OVR, any word
and CLRERR included; other legal offsets do not set it; OVR stays until CLRERR or reset, and while it
is 1 every other command is rejected. -/
def Obligations.OverrunWhileBusy : Prop :=
  (∀ (s : State) (rest : List HostEvent) (off : Offset) (v : Word), s.pend ≠ none →
    s.HostTurn (.write 4 off v) rest → off.toNat % 4 = 0 →
    ((off.toNat = 0x000 ∨ off.toNat = 0x008
        ∨ ∃ i k : Nat, i < 16 ∧ k < 1024 ∧ k < s.maxLimbs ∧ off.toNat = 0x1000 + 0x1000 * i + 4 * k) →
      step s = .next { s.taken rest with ovr := true, bus := some .done })
    ∧ ((off.toNat ≠ 0x000 ∧ off.toNat ≠ 0x008
        ∧ ¬∃ i k : Nat, i < 16 ∧ k < 1024 ∧ k < s.maxLimbs ∧ off.toNat = 0x1000 + 0x1000 * i + 4 * k) →
      step s = .next { s.taken rest with bus := some .done }))
  ∧ (∀ s t : State, s.Inv → s.ovr = true → step s = .next t →
      t.ovr = true ∨ (t.ovr = false ∧ s.ClearingEvent))
  ∧ ∀ (s : State) (rest : List HostEvent) (w : Word), s.ovr = true → s.pend = none →
      w ≠ 0x07000000 → s.HostTurn (.write 4 0 w) rest →
      step s = .next { s.taken rest with rej := true, bus := some .done }

/-- Rejection (R608): a CMD write with BUSY = 0 and ERR ≠ 0 or OVR = 1, not exactly CLRERR, sets REJ and
nothing else; REJ stays 1 until CLRERR or reset. -/
def Obligations.RejectedCommandSetsOnlyRej : Prop :=
  (∀ (s : State) (rest : List HostEvent) (w : Word), s.pend = none → (s.err ≠ none ∨ s.ovr = true) →
    w ≠ 0x07000000 → s.HostTurn (.write 4 0 w) rest →
    step s = .next { s.taken rest with rej := true, bus := some .done })
  ∧ ∀ s t : State, s.Inv → s.rej = true → step s = .next t →
      t.rej = true ∨ (t.rej = false ∧ s.ClearingEvent)

/-- ERR keeps the first error, and ERR, OVR and REJ are cleared by CLRERR and reset alone
(10_state.md R112, 60_exceptions.md R602, 70_reset_and_hazards.md R700). -/
def Obligations.ErrorStateIsSticky : Prop :=
  ∀ s t : State, s.Inv → step s = .next t →
    (∀ e, s.err = some e → t.err = some e ∨ (t.err = none ∧ s.ClearingEvent))
    ∧ (s.ovr = true → t.ovr = true ∨ s.ClearingEvent)
    ∧ (s.rej = true → t.rej = true ∨ s.ClearingEvent)

/-- Every state the completion step reads is the same as at acceptance: while a command is pending, no host
event but reset changes PEND, a register, FLAGS, DATA, ERR, REJ or MAX_LIMBS (60_exceptions.md R606). -/
def Obligations.PendingCommandIsShielded : Prop :=
  ∀ (s t : State) (w : Word), s.pend = some w → s.completes = false →
    (∀ rest, s.host ≠ .reset :: rest) → step s = .next t →
    t.pend = some w ∧ t.regs = s.regs ∧ t.flags = s.flags ∧ t.data = s.data ∧ t.err = s.err
      ∧ t.rej = s.rej ∧ t.maxLimbs = s.maxLimbs

/-- A pending command is completed (or discarded by a reset) after at most as many host events as its drawn
latency, whatever legal accesses the host makes (60_exceptions.md R606, weak fairness; the bound is the model's
choice, log entry 2). -/
def Obligations.PendingCommandCompletes : Prop :=
  ∀ (s : State) (w : Word), s.pend = some w → (∀ e ∈ s.host, e.legal = true) →
    ∃ (k : Nat) (t : State), k ≤ s.wait + 1 ∧ Sys2Proof.core.run k s = .next t ∧ t.pend = none

/-! ### Reset and the invariant -/

/-- After reset every register is 0 and clean, FLAGS, DATA and STATUS are 0, no command is pending, and CAP
reads MAX_LIMBS, for every MAX_LIMBS (R123). -/
def Obligations.ResetStateIsAllZero : Prop :=
  State.reset = State.resetWith 128 ∧ ∀ m : Nat,
    (∀ i : RegIx, (State.resetWith m).len i = 0 ∧ (∀ k, ((State.resetWith m).reg i).limb k = 0)
      ∧ (State.resetWith m).dirty i = false ∧ (State.resetWith m).val i = 0)
    ∧ (State.resetWith m).flags = ⟨false, false, false, false, false, false, false⟩
    ∧ (State.resetWith m).data = 0 ∧ (State.resetWith m).err = none
    ∧ (State.resetWith m).ovr = false ∧ (State.resetWith m).rej = false
    ∧ (State.resetWith m).pend = none ∧ (State.resetWith m).statusWord = 0
    ∧ (State.resetWith m).maxLimbs = m ∧ (State.resetWith m).exactRead .cap = BitVec.ofNat 32 m

/-- The reset event, in any state and with a command pending: every piece of the spec's state takes its reset
value, the pending command is discarded and has no effect, MAX_LIMBS stays (70_reset_and_hazards.md R700; what
becomes of the model's own fields is log entry 10). -/
def Obligations.ResetEventRestoresEverything : Prop :=
  ∀ (s : State) (rest : List HostEvent), s.HostTurn .reset rest →
    step s = .next { State.resetWith s.maxLimbs with host := rest, draws := s.draws }

/-- The invariant holds at reset, for every legal MAX_LIMBS (00_scope.md R8, 10_state.md R102, R123). -/
def Obligations.ResetMeetsTheInvariant : Prop :=
  State.reset.Inv ∧ ∀ m : Nat, 20 ≤ m → m ≤ 1024 → (State.resetWith m).Inv

/-- Every step keeps the invariant: clean registers stay normalised and in range (10_state.md R102), FLAGS stay
consistent, a pending command has no error beside it, REJ only with ERR or OVR. -/
def Obligations.StepKeepsTheInvariant : Prop :=
  ∀ s t : State, s.Inv → step s = .next t → t.Inv

/-- CAP (R111): no step changes MAX_LIMBS, a host read of offset 0x010 gives it whether BUSY or not, and a
host write there is ignored. -/
def Obligations.CapIsConstant : Prop :=
  (∀ s t : State, step s = .next t → t.maxLimbs = s.maxLimbs)
  ∧ (∀ m, (State.resetWith m).maxLimbs = m)
  ∧ (∀ (s : State) (rest : List HostEvent), s.HostTurn (.read 4 0x010) rest →
      step s = .next { s.taken rest with bus := some (.data (BitVec.ofNat 32 s.maxLimbs)) })
  ∧ ∀ (s : State) (rest : List HostEvent) (v : Word), s.HostTurn (.write 4 0x010 v) rest →
      step s = .next { s.taken rest with bus := some .done }

/-- FLAGS are changed only by the completion of a CMP or a TSTZ, and by reset; CMP leaves Z and NZ and TSTZ
leaves the other five bits (10_state.md R113). -/
def Obligations.FlagsChangeOnlyByCmpAndTstz : Prop :=
  ∀ s t : State, step s = .next t → t.flags ≠ s.flags →
    (∃ rest, s.HostTurn .reset rest)
    ∨ (∃ w a b, s.pend = some w ∧ s.completes = true ∧ decode w = .ok (.cmp a b)
        ∧ t.flags.z = s.flags.z ∧ t.flags.nz = s.flags.nz)
    ∨ (∃ w a, s.pend = some w ∧ s.completes = true ∧ decode w = .ok (.tstz a)
        ∧ t.flags.eq = s.flags.eq ∧ t.flags.lt = s.flags.lt ∧ t.flags.gt = s.flags.gt
        ∧ t.flags.le = s.flags.le ∧ t.flags.ge = s.flags.ge)

/-- DATA (10_state.md R114, R206), at offset 0x008: a read gives it, BUSY or not; no command writes it; a host write while BUSY = 0 stores
the value, while BUSY = 1 it is dropped; no other step but a reset changes it; its reset value is 0; SETW and
SETLEN take it as their operand. -/
def Obligations.DataIsWrittenOnlyByTheHost : Prop :=
  (∀ (i : Instr) (s t : State), exec i s = .next t → t.data = s.data)
  ∧ (∀ (s : State) (rest : List HostEvent), s.HostTurn (.read 4 0x008) rest →
      step s = .next { s.taken rest with bus := some (.data s.data) })
  ∧ (∀ s t : State, step s = .next t → t.data = s.data
      ∨ (∃ v rest, s.pend = none ∧ s.HostTurn (.write 4 0x008 v) rest ∧ t.data = v)
      ∨ (∃ rest, s.HostTurn .reset rest ∧ t.data = 0))
  ∧ (∀ (s : State) (rd : RegIx), s.Inv → (∃ t, exec (.setw rd) s = .next t ∧ t.val rd = s.data.toNat)
      ∧ ∃ t, exec (.setlen rd) s = .next t
        ∧ (s.data.toNat ≤ s.maxLimbs → t.val rd = limbsVal ((s.reg rd).limbs.take s.data.toNat)))
  ∧ (∀ (s : State) (rest : List HostEvent) (v : Word), s.HostTurn (.write 4 0x008 v) rest →
      (s.pend = none → step s = .next { s.taken rest with data := v, bus := some .done })
      ∧ (s.pend ≠ none → step s = .next { s.taken rest with ovr := true, bus := some .done }))
  ∧ ∀ m, (State.resetWith m).data = 0

/-! ### The host register space -/

/-- An access of a width other than 4 bytes, or at an offset with bits [1:0] ≠ 00, is a bus error, and the
model faults (20_memory.md R202; log entry 6); every legal access is answered. -/
def Obligations.IllegalAccessIsBusError : Prop :=
  ∀ (s : State) (rest : List HostEvent) (width : Nat) (off : Offset) (v : Word),
    ((width ≠ 4 ∨ off.toNat % 4 ≠ 0) →
      (s.HostTurn (.read width off) rest → step s = .fault (.busError width off))
      ∧ (s.HostTurn (.write width off v) rest → step s = .fault (.busError width off)))
    ∧ (width = 4 → off.toNat % 4 = 0 →
      (s.HostTurn (.read width off) rest → ∃ t x, step s = .next t ∧ t.bus = some (.data x))
      ∧ (s.HostTurn (.write width off v) rest → ∃ t, step s = .next t ∧ t.bus = some .done))

/-- Reads while BUSY = 0 give the register the map names at the offset, and change nothing but the answer
(20_memory.md R201, R203, R207, R209; 10_state.md R111 to R117). -/
def Obligations.IdleReadsFollowTheRegisterMap : Prop :=
  ∀ (s : State) (rest : List HostEvent) (off : Offset), s.pend = none → s.HostTurn (.read 4 off) rest →
    ∀ x : Word,
      ((off.toNat = 0x000 ∧ x = 0)
        ∨ (off.toNat = 0x004 ∧ x = s.statusWord)
        ∨ (off.toNat = 0x008 ∧ x = s.data)
        ∨ (off.toNat = 0x00C ∧ x = s.flags.word)
        ∨ (off.toNat = 0x010 ∧ x = BitVec.ofNat 32 s.maxLimbs)
        ∨ (off.toNat = 0x014 ∧ x = s.dirtyWord)
        ∨ (∃ i : RegIx, off.toNat = 0x040 + 4 * i.val ∧ x = s.lenWord i)
        ∨ (∃ (i : RegIx) (k : Nat), k < 1024 ∧ k < s.maxLimbs
            ∧ off.toNat = 0x1000 + 0x1000 * i.val + 4 * k ∧ x = (s.reg i).limb k)
        ∨ (off.toNat % 4 = 0 ∧ x = 0
            ∧ ((0x018 ≤ off.toNat ∧ off.toNat ≤ 0x03C) ∨ (0x080 ≤ off.toNat ∧ off.toNat ≤ 0xFFC)
              ∨ 0x11000 ≤ off.toNat))) →
      step s = .next { s.taken rest with bus := some (.data x) }

/-- Limb window read (R204): while BUSY = 0 the stored limb, or 0 where k ≥ MAX_LIMBS, with no side effect;
while BUSY = 1 any value where k < MAX_LIMBS (R208). -/
def Obligations.LimbWindowRead : Prop :=
  ∀ (s : State) (rest : List HostEvent) (off : Offset) (i : RegIx) (k : Nat), k < 1024 →
    off.toNat = 0x1000 + 0x1000 * i.val + 4 * k → s.HostTurn (.read 4 off) rest →
    (s.pend = none → k < s.maxLimbs →
      step s = .next { s.taken rest with bus := some (.data ((s.reg i).limb k)) })
    ∧ (s.maxLimbs ≤ k → step s = .next { s.taken rest with bus := some (.data 0) })
    ∧ (s.pend ≠ none → k < s.maxLimbs →
      step s = .next { s.taken rest with
        bus := some (.data (Config.freeWord s.draws)), draws := s.draws + 1 })

/-- Limb window write (R205): dropped with OVR while BUSY = 1; else for k < MAX_LIMBS the limb is stored and
DIRTY set, LEN and every other limb and register unchanged; else ignored. The register stays dirty until
a command writes it (SETLEN among them), or a reset. (That a write above MAX_LIMBS sets no OVR while
BUSY = 1 is R207's.) -/
def Obligations.LimbWindowWrite : Prop :=
  (∀ (s : State) (rest : List HostEvent) (off : Offset) (v : Word) (i : RegIx) (k : Nat), s.Inv →
    k < 1024 → off.toNat = 0x1000 + 0x1000 * i.val + 4 * k → s.HostTurn (.write 4 off v) rest →
    (s.pend ≠ none → k < s.maxLimbs →
      step s = .next { s.taken rest with ovr := true, bus := some .done })
    ∧ (s.pend = none → k < s.maxLimbs →
      ∃ t, step s = .next t ∧ (t.reg i).limb k = v ∧ t.dirty i = true ∧ t.len i = s.len i
        ∧ (∀ j, j ≠ k → (t.reg i).limb j = (s.reg i).limb j)
        ∧ SameExcept [i] { s.taken rest with bus := some .done } t)
    ∧ (s.maxLimbs ≤ k → step s = .next { s.taken rest with bus := some .done }))
  ∧ ∀ (s t : State) (i : RegIx), s.dirty i = true → step s = .next t →
    t.dirty i = true ∨ (∃ rest, s.HostTurn .reset rest)
      ∨ ∃ w c, s.completes = true ∧ s.pend = some w ∧ decode w = .ok c ∧ i ∈ destinations c

/-- Reserved offsets and read-only registers (R207): a read of a reserved offset gives 0, a write to one or
to STATUS, FLAGS, CAP, DIRTY or LEN[i] is ignored whatever BUSY is, and no error or OVR comes of it. -/
def Obligations.ReservedAndReadOnlyOffsets : Prop :=
  ∀ (s : State) (rest : List HostEvent) (off : Offset), off.toNat % 4 = 0 →
    (((0x018 ≤ off.toNat ∧ off.toNat ≤ 0x03C) ∨ (0x080 ≤ off.toNat ∧ off.toNat ≤ 0xFFC)
        ∨ (∃ i k : Nat, i < 16 ∧ k < 1024 ∧ s.maxLimbs ≤ k
            ∧ off.toNat = 0x1000 + 0x1000 * i + 4 * k)
        ∨ 0x11000 ≤ off.toNat) →
      (s.HostTurn (.read 4 off) rest → step s = .next { s.taken rest with bus := some (.data 0) })
      ∧ ∀ v, s.HostTurn (.write 4 off v) rest →
          step s = .next { s.taken rest with bus := some .done })
    ∧ ((off.toNat = 0x004 ∨ off.toNat = 0x00C ∨ off.toNat = 0x010 ∨ off.toNat = 0x014
        ∨ (0x040 ≤ off.toNat ∧ off.toNat ≤ 0x07C)) →
      ∀ v, s.HostTurn (.write 4 off v) rest →
        step s = .next { s.taken rest with bus := some .done })

/-- Reads while BUSY = 1 (R208): FLAGS, DIRTY, LEN[i] and the limb windows give any value, freshly drawn;
STATUS, DATA, CAP, CMD and reserved offsets are exact; no read sets OVR. -/
def Obligations.ReadsWhileBusy : Prop :=
  ∀ (s : State) (rest : List HostEvent) (off : Offset), s.pend ≠ none → s.HostTurn (.read 4 off) rest →
    ((off.toNat = 0x00C ∨ off.toNat = 0x014 ∨ (∃ i : RegIx, off.toNat = 0x040 + 4 * i.val)
        ∨ (∃ i k : Nat, i < 16 ∧ k < 1024 ∧ k < s.maxLimbs
            ∧ off.toNat = 0x1000 + 0x1000 * i + 4 * k)) →
      step s = .next { s.taken rest with
        bus := some (.data (Config.freeWord s.draws)), draws := s.draws + 1 })
    ∧ ∀ x : Word,
      ((off.toNat = 0x000 ∧ x = 0) ∨ (off.toNat = 0x004 ∧ x = s.statusWord)
        ∨ (off.toNat = 0x008 ∧ x = s.data) ∨ (off.toNat = 0x010 ∧ x = BitVec.ofNat 32 s.maxLimbs)
        ∨ (x = 0 ∧ off.toNat % 4 = 0
            ∧ ((0x018 ≤ off.toNat ∧ off.toNat ≤ 0x03C) ∨ (0x080 ≤ off.toNat ∧ off.toNat ≤ 0xFFC)
              ∨ (∃ i k : Nat, i < 16 ∧ k < 1024 ∧ s.maxLimbs ≤ k
                  ∧ off.toNat = 0x1000 + 0x1000 * i + 4 * k)
              ∨ 0x11000 ≤ off.toNat))) →
      step s = .next { s.taken rest with bus := some (.data x) }

/-- The fields of the STATUS word: BUSY bit 0, OVR bit 1, REJ bit 2, ERR bits 11:8 with the code of R600, all
other bits 0 (10_state.md R112, 60_exceptions.md R600). -/
def Obligations.StatusWordFields : Prop :=
  ∀ s : State, s.statusWord.toNat
    = (if s.pend = none then 0 else 1) + (if s.ovr = true then 2 else 0)
      + (if s.rej = true then 4 else 0)
      + 256 * (match s.err with
        | none => 0
        | some .illegalOp => 1
        | some .badOperand => 2
        | some .dirtyOperand => 3
        | some .divZero => 4
        | some .subUnderflow => 5
        | some .capacity => 6)

/-- The bits of the FLAGS word: EQ 0, LT 1, GT 2, LE 3, GE 4, Z 5, NZ 6, all other bits 0
(10_state.md R113). -/
def Obligations.FlagsWordFields : Prop :=
  ∀ f : Flags, f.word.toNat
    = f.eq.toNat + 2 * f.lt.toNat + 4 * f.gt.toNat + 8 * f.le.toNat + 16 * f.ge.toNat
      + 32 * f.z.toNat + 64 * f.nz.toNat

/-- DIRTY (R115), at offset 0x014, read-only: bit i reads DIRTY[i], bits 31:16 read 0, and the reset value
is 0. (While BUSY = 1 its read is open: R208.) -/
def Obligations.DirtyWordBits : Prop :=
  (∀ (s : State) (rest : List HostEvent), s.pend = none → s.HostTurn (.read 4 0x014) rest →
      step s = .next { s.taken rest with bus := some (.data s.dirtyWord) })
  ∧ (∀ (s : State) (rest : List HostEvent) (v : Word), s.HostTurn (.write 4 0x014 v) rest →
      step s = .next { s.taken rest with bus := some .done })
  ∧ (∀ (s : State) (i : RegIx), s.dirtyWord.getLsbD i.val = s.dirty i)
  ∧ (∀ (s : State) (k : Nat), 16 ≤ k → s.dirtyWord.getLsbD k = false)
  ∧ ∀ m, (State.resetWith m).dirtyWord = 0

/-- LEN[i] (R116), at offset 0x040 + 4·i, read-only: bits 10:0 read LEN[i] and bits 31:11 read 0; the reset
value is 0; a host write to it changes nothing. (While BUSY = 1 its read is open: R208.) -/
def Obligations.LenWordBits : Prop :=
  (∀ (s : State) (i : RegIx), s.Inv → (s.lenWord i).toNat = s.len i ∧ (s.lenWord i).toNat < 2 ^ 11)
  ∧ (∀ (m : Nat) (i : RegIx), (State.resetWith m).lenWord i = 0)
  ∧ ∀ (s : State) (rest : List HostEvent) (off : Offset) (i : RegIx), off.toNat = 0x040 + 4 * i.val →
      (s.pend = none → s.HostTurn (.read 4 off) rest →
        step s = .next { s.taken rest with bus := some (.data (s.lenWord i)) })
      ∧ ∀ v : Word, s.HostTurn (.write 4 off v) rest →
        step s = .next { s.taken rest with bus := some .done }

/-- The window bytes of a clean register are the little-endian byte string of its value, zero-padded to
4·MAX_LIMBS bytes (20_memory.md R210 to R212). -/
def Obligations.WindowBytesAreTheValue : Prop :=
  ∀ (s : State) (i : RegIx) (m : Nat), s.Inv → s.dirty i = false → m < 4 * s.maxLimbs →
    (s.windowByte i m).toNat = s.val i / 256 ^ m % 256

/-- With the block at a 4 KiB-aligned BASE, exactly the 2^17 host addresses from BASE up reach it, each at its
own offset, with its own alignment (20_memory.md R200, R201; the translation's form is log entry 5). -/
def Obligations.HostAddressesReachTheirOffset : Prop :=
  ∀ base addr : Nat, base % 4096 = 0 →
    (∀ off : Offset, offsetOf base addr = some off ↔ addr = base + off.toNat)
    ∧ ∀ off : Offset, offsetOf base addr = some off → off.toNat % 4 = addr % 4

/-- The value of a register (R101): the weighted sum of its limbs below LEN, 0 when LEN = 0. -/
def Obligations.ValueIsTheWeightedSumOfLimbs : Prop :=
  ∀ (s : State) (i : RegIx), s.Inv →
    s.val i = ∑ k ∈ Finset.range (s.len i), ((s.reg i).limb k).toNat * 2 ^ (32 * k)
    ∧ (s.len i = 0 → s.val i = 0)

/-! ### The commands -/

/-- NOP (R530): nothing but BUSY 1 → 0 at its completion; it is accepted and rejected like any command; a
word 0x01xxxxxx with a low bit set is ILLEGAL_OP. -/
def Obligations.NopOnlyClearsBusy : Prop :=
  (∀ s : State, exec .nop s = .next s)
  ∧ (∀ s : State, s.pend = some 0x01000000 → s.completes = true →
      step s = .next { s with pend := none, wait := 0 })
  ∧ (∀ (s : State) (rest : List HostEvent), s.pend = none →
      s.HostTurn (.write 4 0 0x01000000) rest →
      (s.err = none → s.ovr = false → ∃ t, step s = .next t ∧ t.pend = some 0x01000000)
      ∧ ((s.err ≠ none ∨ s.ovr = true) →
        step s = .next { s.taken rest with rej := true, bus := some .done }))
  ∧ ∀ (s : State) (w : Word), w.toNat / 2 ^ 24 = 1 → w ≠ 0x01000000 → s.pend = some w →
      s.completes = true →
      step s = .next { s with err := some .illegalOp, pend := none, wait := 0 }

/-- CLRERR (R531, 60_exceptions.md R609): ERR, OVR and REJ become 0 and nothing else changes, BUSY neither;
with BUSY = 0 at once, with no completion step; while BUSY = 1 it is dropped and sets OVR; it is the only command accepted while ERR ≠ 0
or OVR = 1; 0x07xxxxxx with a low bit set is not CLRERR: rejected if an error is pending, else accepted to fail with ILLEGAL_OP. -/
def Obligations.ClrerrClearsErrorState : Prop :=
  (∀ s : State, exec .clrerr s = .next { s with err := none, ovr := false, rej := false })
  ∧ (∀ (s : State) (rest : List HostEvent), s.HostTurn (.write 4 0 0x07000000) rest →
      (s.pend = none → step s = .next { s.taken rest with
        err := none, ovr := false, rej := false, bus := some .done })
      ∧ (s.pend ≠ none → step s = .next { s.taken rest with ovr := true, bus := some .done }))
  ∧ (∀ (s : State) (rest : List HostEvent) (w : Word), w ≠ 0x07000000 → s.pend = none →
      s.HostTurn (.write 4 0 w) rest → (s.err ≠ none ∨ s.ovr = true) →
      step s = .next { s.taken rest with rej := true, bus := some .done })
  ∧ ∀ (s : State) (w : Word), w.toNat / 2 ^ 24 = 7 → w ≠ 0x07000000 →
      (∀ rest, s.pend = none → s.HostTurn (.write 4 0 w) rest → s.err = none → s.ovr = false →
        ∃ t, step s = .next t ∧ t.pend = some w)
      ∧ (s.pend = some w → s.completes = true →
        step s = .next { s with err := some .illegalOp, pend := none, wait := 0 })

/-- CLR (R400): x[rd] is 0, clean, and nothing else changes. -/
def Obligations.ClrWritesZero : Prop :=
  ∀ (s : State) (rd : RegIx),
    ∃ t, exec (.clr rd) s = .next t ∧ t.Holds rd 0 ∧ SameExcept [rd] s t

/-- COPY (R402): DIRTY_OPERAND from a dirty source, else x[rd] is x[rs1] and nothing else changes; with
rd = rs1 the register itself is unchanged. -/
def Obligations.CopyWritesTheSourceValue : Prop :=
  ∀ (s : State) (rd rs1 : RegIx), s.Inv →
    (s.dirty rs1 = true → exec (.copy rd rs1) s = .next { s with err := some .dirtyOperand })
    ∧ (s.dirty rs1 = false →
      ∃ t, exec (.copy rd rs1) s = .next t ∧ t.Holds rd (s.val rs1) ∧ t.reg rd = s.reg rs1
        ∧ SameExcept [rd] s t)

/-- CONST (R404): k ≤ 10 is written, k > 10 is BAD_OPERAND with nothing written. -/
def Obligations.ConstWritesRomValue : Prop :=
  ∀ (s : State) (rd : RegIx) (k : Nat), s.Inv →
    (10 < k → exec (.const rd k) s = .next { s with err := some .badOperand })
    ∧ (k ≤ 10 → ∃ t, exec (.const rd k) s = .next t ∧ t.Holds rd k ∧ SameExcept [rd] s t)

/-- SETW (R406): x[rd] is DATA, zero-extended. -/
def Obligations.SetwWritesData : Prop :=
  ∀ (s : State) (rd : RegIx), s.Inv →
    ∃ t, exec (.setw rd) s = .next t ∧ t.Holds rd s.data.toNat ∧ SameExcept [rd] s t

/-- SETLEN (R408): DATA > MAX_LIMBS is BAD_OPERAND; else, with no DIRTY check, limbs below n = DATA stay,
the others become 0, LEN is the trimmed length, DIRTY is 0, and the value is the sum of the limbs below n. -/
def Obligations.SetlenNormalisesRegister : Prop :=
  ∀ (s : State) (rd : RegIx), s.Inv →
    (s.maxLimbs < s.data.toNat → exec (.setlen rd) s = .next { s with err := some .badOperand })
    ∧ (s.data.toNat ≤ s.maxLimbs →
      ∃ t, exec (.setlen rd) s = .next t
        ∧ t.Holds rd (∑ k ∈ Finset.range s.data.toNat, ((s.reg rd).limb k).toNat * 2 ^ (32 * k))
        ∧ (∀ k, k < s.data.toNat → (t.reg rd).limb k = (s.reg rd).limb k)
        ∧ (∀ k, s.data.toNat ≤ k → k < s.maxLimbs → (t.reg rd).limb k = 0)
        ∧ t.len rd ≤ s.data.toNat
        ∧ (t.len rd = 0 ∨ (t.reg rd).limb (t.len rd - 1) ≠ 0)
        ∧ SameExcept [rd] s t)

/-- CMP (R420): DIRTY_OPERAND from a dirty source; else EQ, LT, GT, LE and GE say how the two values stand,
Z and NZ and everything else unchanged. -/
def Obligations.CmpWritesTheOrder : Prop :=
  ∀ (s : State) (rs1 rs2 : RegIx), s.Inv →
    ((s.dirty rs1 = true ∨ s.dirty rs2 = true) →
      exec (.cmp rs1 rs2) s = .next { s with err := some .dirtyOperand })
    ∧ (s.dirty rs1 = false → s.dirty rs2 = false →
      exec (.cmp rs1 rs2) s = .next { s with flags := { s.flags with
        eq := decide (s.val rs1 = s.val rs2)
        lt := decide (s.val rs1 < s.val rs2)
        gt := decide (s.val rs1 > s.val rs2)
        le := decide (s.val rs1 ≤ s.val rs2)
        ge := decide (s.val rs1 ≥ s.val rs2) } })

/-- TSTZ (R424): DIRTY_OPERAND from a dirty source; else Z and NZ say whether LEN is 0, that is, whether the
value is 0; everything else unchanged. -/
def Obligations.TstzWritesTheZeroTest : Prop :=
  ∀ (s : State) (rs1 : RegIx),
    (s.dirty rs1 = true → exec (.tstz rs1) s = .next { s with err := some .dirtyOperand })
    ∧ (s.dirty rs1 = false →
      exec (.tstz rs1) s = .next { s with flags := { s.flags with
        z := decide (s.len rs1 = 0), nz := decide (s.len rs1 ≠ 0) } })
    ∧ (s.Inv → s.dirty rs1 = false → (s.len rs1 = 0 ↔ s.val rs1 = 0))

/-- ADD (R440): DIRTY_OPERAND; CAPACITY when a + b ≥ 2^(32·MAX_LIMBS); else x[rd] is exactly a + b and
nothing else changes, FLAGS included. -/
def Obligations.AddWritesTheSum : Prop :=
  ∀ (s : State) (rd rs1 rs2 : RegIx), s.Inv →
    ((s.dirty rs1 = true ∨ s.dirty rs2 = true) →
      exec (.add rd rs1 rs2) s = .next { s with err := some .dirtyOperand })
    ∧ (s.dirty rs1 = false → s.dirty rs2 = false →
      (2 ^ (32 * s.maxLimbs) ≤ s.val rs1 + s.val rs2 →
        exec (.add rd rs1 rs2) s = .next { s with err := some .capacity })
      ∧ (s.val rs1 + s.val rs2 < 2 ^ (32 * s.maxLimbs) →
        ∃ t, exec (.add rd rs1 rs2) s = .next t ∧ t.Holds rd (s.val rs1 + s.val rs2)
          ∧ SameExcept [rd] s t))

/-- SUB (R446): DIRTY_OPERAND; SUB_UNDERFLOW when a < b; else x[rd] is exactly a − b and nothing else
changes. -/
def Obligations.SubWritesTheDifference : Prop :=
  ∀ (s : State) (rd rs1 rs2 : RegIx), s.Inv →
    ((s.dirty rs1 = true ∨ s.dirty rs2 = true) →
      exec (.sub rd rs1 rs2) s = .next { s with err := some .dirtyOperand })
    ∧ (s.dirty rs1 = false → s.dirty rs2 = false →
      (s.val rs1 < s.val rs2 → exec (.sub rd rs1 rs2) s = .next { s with err := some .subUnderflow })
      ∧ (s.val rs2 ≤ s.val rs1 →
        ∃ t, exec (.sub rd rs1 rs2) s = .next t ∧ t.Holds rd (s.val rs1 - s.val rs2)
          ∧ SameExcept [rd] s t))

/-- MUL (R460): DIRTY_OPERAND; CAPACITY when nlimbs(a·b) > MAX_LIMBS; else x[rd] is exactly a·b and nothing
else changes. -/
def Obligations.MulWritesTheProduct : Prop :=
  ∀ (s : State) (rd rs1 rs2 : RegIx), s.Inv →
    ((s.dirty rs1 = true ∨ s.dirty rs2 = true) →
      exec (.mul rd rs1 rs2) s = .next { s with err := some .dirtyOperand })
    ∧ (s.dirty rs1 = false → s.dirty rs2 = false →
      (s.maxLimbs < nlimbs (s.val rs1 * s.val rs2) →
        exec (.mul rd rs1 rs2) s = .next { s with err := some .capacity })
      ∧ (nlimbs (s.val rs1 * s.val rs2) ≤ s.maxLimbs →
        ∃ t, exec (.mul rd rs1 rs2) s = .next t ∧ t.Holds rd (s.val rs1 * s.val rs2)
          ∧ SameExcept [rd] s t))

/-- DIV (R480): BAD_OPERAND when rd = rs3; DIRTY_OPERAND; DIV_ZERO for a zero divisor, a zero dividend
included; else quotient and remainder, whichever registers are named, and nothing else changes. -/
def Obligations.DivWritesQuotientAndRemainder : Prop :=
  ∀ (s : State) (rd rs1 rs2 rs3 : RegIx), s.Inv →
    (rd = rs3 → exec (.div rd rs1 rs2 rs3) s = .next { s with err := some .badOperand })
    ∧ (rd ≠ rs3 → (s.dirty rs1 = true ∨ s.dirty rs2 = true) →
      exec (.div rd rs1 rs2 rs3) s = .next { s with err := some .dirtyOperand })
    ∧ (rd ≠ rs3 → s.dirty rs1 = false → s.dirty rs2 = false →
      (s.val rs2 = 0 → exec (.div rd rs1 rs2 rs3) s = .next { s with err := some .divZero })
      ∧ (s.val rs2 ≠ 0 →
        ∃ t, exec (.div rd rs1 rs2 rs3) s = .next t ∧ t.Holds rd (s.val rs1 / s.val rs2)
          ∧ t.Holds rs3 (s.val rs1 % s.val rs2) ∧ SameExcept [rd, rs3] s t))

/-- MOD (R510): DIRTY_OPERAND; DIV_ZERO for a zero modulus; else x[rd] is a mod b and nothing else changes. -/
def Obligations.ModWritesTheRemainder : Prop :=
  ∀ (s : State) (rd rs1 rs2 : RegIx), s.Inv →
    ((s.dirty rs1 = true ∨ s.dirty rs2 = true) →
      exec (.mod rd rs1 rs2) s = .next { s with err := some .dirtyOperand })
    ∧ (s.dirty rs1 = false → s.dirty rs2 = false →
      (s.val rs2 = 0 → exec (.mod rd rs1 rs2) s = .next { s with err := some .divZero })
      ∧ (s.val rs2 ≠ 0 →
        ∃ t, exec (.mod rd rs1 rs2) s = .next t ∧ t.Holds rd (s.val rs1 % s.val rs2)
          ∧ SameExcept [rd] s t))

/-- MULMOD (R512): DIRTY_OPERAND; DIV_ZERO for a zero modulus; else x[rd] is (a·b) mod m, CAPACITY is never
raised, and nothing else changes. -/
def Obligations.MulmodWritesTheReducedProduct : Prop :=
  ∀ (s : State) (rd rs1 rs2 rs3 : RegIx), s.Inv →
    ((s.dirty rs1 = true ∨ s.dirty rs2 = true ∨ s.dirty rs3 = true) →
      exec (.mulmod rd rs1 rs2 rs3) s = .next { s with err := some .dirtyOperand })
    ∧ (s.dirty rs1 = false → s.dirty rs2 = false → s.dirty rs3 = false →
      (s.val rs3 = 0 → exec (.mulmod rd rs1 rs2 rs3) s = .next { s with err := some .divZero })
      ∧ (s.val rs3 ≠ 0 →
        ∃ t, exec (.mulmod rd rs1 rs2 rs3) s = .next t
          ∧ t.Holds rd (s.val rs1 * s.val rs2 % s.val rs3) ∧ SameExcept [rd] s t))

/-! ### Laws of the arithmetic -/

/-- The division identity (R481), the headline of the long divider: after a DIV with a non-zero divisor,
a = q·b + r and 0 ≤ r < b, and the pair written is the only one that satisfies this. -/
def Obligations.DivisionIdentity : Prop :=
  ∀ (s : State) (rd rs1 rs2 rs3 : RegIx), s.Inv → rd ≠ rs3 → s.dirty rs1 = false →
    s.dirty rs2 = false → 0 < s.val rs2 →
    ∃ t, exec (.div rd rs1 rs2 rs3) s = .next t
      ∧ s.val rs1 = t.val rd * s.val rs2 + t.val rs3 ∧ t.val rs3 < s.val rs2
      ∧ ∀ q r : Nat, s.val rs1 = q * s.val rs2 + r → r < s.val rs2 → t.val rd = q ∧ t.val rs3 = r

/-- The add/subtract inverse: an ADD without CAPACITY, then a SUB of the same operand, gives the first
operand back (42_add_sub.md R449). The sum goes to a register other than the second operand. -/
def Obligations.SubUndoesAdd : Prop :=
  ∀ (s : State) (rd re rs1 rs2 : RegIx), s.Inv → s.dirty rs1 = false → s.dirty rs2 = false →
    rd ≠ rs2 → s.val rs1 + s.val rs2 < 2 ^ (32 * s.maxLimbs) →
    ∃ t u, exec (.add rd rs1 rs2) s = .next t ∧ exec (.sub re rd rs2) t = .next u
      ∧ u.Holds re (s.val rs1)

/-- ADD and MUL are commutative in register state (42_add_sub.md R449, 43_multiply.md R464). -/
def Obligations.AddAndMulCommute : Prop :=
  ∀ (s : State) (rd rs1 rs2 : RegIx), s.Inv →
    exec (.add rd rs1 rs2) s = exec (.add rd rs2 rs1) s
    ∧ exec (.mul rd rs1 rs2) s = exec (.mul rd rs2 rs1) s

/-- The remainder MOD writes is the one DIV writes, and MULMOD writes what a MUL and then a MOD would where
the product fits (45_modular.md R511 item 6, R513). -/
def Obligations.RemainderCommandsAgree : Prop :=
  (∀ (s t u : State) (rd re rf rs1 rs2 : RegIx), s.Inv → rd ≠ re → s.dirty rs1 = false →
    s.dirty rs2 = false → s.val rs2 ≠ 0 → exec (.div rd rs1 rs2 re) s = .next t →
    exec (.mod rf rs1 rs2) s = .next u → u.reg rf = t.reg re)
  ∧ ∀ (s t u v : State) (rd rs1 rs2 rs3 : RegIx), s.Inv → s.dirty rs1 = false →
    s.dirty rs2 = false → s.dirty rs3 = false → s.val rs3 ≠ 0 → rd ≠ rs3 →
    nlimbs (s.val rs1 * s.val rs2) ≤ s.maxLimbs →
    exec (.mul rd rs1 rs2) s = .next t → exec (.mod rd rd rs3) t = .next u →
    exec (.mulmod rd rs1 rs2 rs3) s = .next v → v = u

/-! ### Whole-machine rules -/

/-- The frame of every command (10_state.md R107, 60_exceptions.md R603): a register that is no destination
is unchanged; FLAGS only by CMP and TSTZ; OVR and REJ only by CLRERR; MAX_LIMBS, DATA, PEND and the model's
own fields by none; and a command that records an error writes nothing else. -/
def Obligations.CommandFrame : Prop :=
  ∀ (i : Instr) (s t : State), exec i s = .next t →
    (∀ r, r ∉ destinations i → t.reg r = s.reg r)
    ∧ ((∀ a b, i ≠ .cmp a b) → (∀ a, i ≠ .tstz a) → t.flags = s.flags)
    ∧ (i ≠ .clrerr → t.ovr = s.ovr ∧ t.rej = s.rej)
    ∧ t.maxLimbs = s.maxLimbs ∧ t.data = s.data ∧ t.pend = s.pend ∧ t.wait = s.wait
    ∧ t.host = s.host ∧ t.bus = s.bus ∧ t.draws = s.draws
    ∧ (i ≠ .clrerr → t.err ≠ s.err → ∃ e, t = { s with err := some e })

/-- A command reads only its sources, DATA and MAX_LIMBS (10_state.md R107): two states with no error pending
that agree on these, whatever their FLAGS, give the same error, and without one the same destination
registers. FLAGS are not read but kept in part (R113): if they agree before, they agree after. -/
def Obligations.CommandReadsOnlyItsSources : Prop :=
  ∀ (i : Instr) (s₁ s₂ t₁ t₂ : State), (∀ r ∈ sources i, s₁.reg r = s₂.reg r) →
    s₁.data = s₂.data → s₁.maxLimbs = s₂.maxLimbs → s₁.err = none → s₂.err = none →
    exec i s₁ = .next t₁ → exec i s₂ = .next t₂ →
    t₁.err = t₂.err
      ∧ (t₁.err = none → ∀ r ∈ destinations i, t₁.reg r = t₂.reg r)
      ∧ (s₁.flags = s₂.flags → t₁.flags = t₂.flags)

/-- The table of errors (R601) with its priority (R604): what a word does when it runs with no error recorded. It
records an error exactly when one of the table's conditions holds, the first in the order ILLEGAL_OP,
BAD_OPERAND, DIRTY_OPERAND, DIV_ZERO, SUB_UNDERFLOW, CAPACITY, and then nothing else is written; with no
condition met, ERR stays NONE. -/
def Obligations.ErrorsFollowTheTableAndPriority : Prop :=
  ∀ (s : State) (w : Word), s.Inv → s.err = none →
    (∀ e, WordRaises s w e → (∀ e', WordRaises s w e' → e.rank ≤ e'.rank) →
      runWord w s = .next { s with err := some e })
    ∧ ((∀ e, ¬WordRaises s w e) → ∃ t, runWord w s = .next t ∧ t.err = none)

/-- Loading a wide value (R704, with the LDBIG expansion of 30_encoding.md R321): from a trustworthy state whose host
is about to run LDBIG with at most MAX_LIMBS limbs, some number of steps, whatever the latency, ends with the
value in x[rd], clean, the host done, no command pending and no error, every other register and FLAGS
unchanged. -/
def Obligations.LdbigLoadsTheValue : Prop :=
  ∀ (s : State) (rd : RegIx) (vs : List Word), s.Inv → s.trustworthy = true →
    vs.length ≤ s.maxLimbs → s.host = (Pseudo.ldbig rd vs).expand →
    ∃ (k : Nat) (t : State), Sys2Proof.core.run k s = .next t ∧ t.host = [] ∧ t.trustworthy = true
      ∧ t.Holds rd (limbsVal vs) ∧ (∀ i, i ≠ rd → t.reg i = s.reg i) ∧ t.flags = s.flags
end

