-- ==== Sys2Proof/Laws/Limbs.lean ====
section
/-! SUPPORT. Limb sequences and the numbers they represent: value, limbs of a number, `nlimbs`, trim. -/

namespace Sys2Proof.Machine

@[simp] theorem limbsVal_nil : limbsVal [] = 0 := rfl

@[simp] theorem limbsVal_cons (l : Word) (ls : List Word) :
    limbsVal (l :: ls) = l.toNat + radix * limbsVal ls := rfl

theorem word_lt_radix (w : Word) : w.toNat < radix := w.isLt

theorem ofNat_toNat_mod (n : Nat) : (BitVec.ofNat 32 n).toNat = n % radix := by
  simp [BitVec.toNat_ofNat, radix]

theorem ofNat_eq_zero_iff (n : Nat) : BitVec.ofNat 32 n = (0 : Word) ↔ n % radix = 0 := by
  rw [← BitVec.toNat_inj, ofNat_toNat_mod]; simp

/-- A limb sequence is its first limb and the rest, also when it is empty. -/
theorem limbsVal_head_tail (ls : List Word) :
    limbsVal ls = (ls.headD 0).toNat + radix * limbsVal ls.tail := by
  cases ls <;> simp

theorem limbsVal_lt (ls : List Word) : limbsVal ls < radix ^ ls.length := by
  induction ls with
  | nil => simp
  | cons l ls ih =>
    have := word_lt_radix l
    rw [limbsVal_cons, List.length_cons, pow_succ, mul_comm _ radix]
    calc l.toNat + radix * limbsVal ls < radix + radix * limbsVal ls := by omega
      _ = radix * (limbsVal ls + 1) := by ring
      _ ≤ radix * radix ^ ls.length := Nat.mul_le_mul_left _ ih

theorem limbsVal_append (a b : List Word) :
    limbsVal (a ++ b) = limbsVal a + radix ^ a.length * limbsVal b := by
  induction a with
  | nil => simp
  | cons l ls ih => simp only [List.cons_append, limbsVal_cons, ih, List.length_cons, pow_succ]; ring

theorem limbsVal_replicate_zero (n : Nat) : limbsVal (List.replicate n 0) = 0 := by
  induction n with
  | zero => rfl
  | succ n ih => rw [List.replicate_succ, limbsVal_cons, ih]; rfl

theorem limbsVal_take_drop (n : Nat) (ls : List Word) (h : n ≤ ls.length) :
    limbsVal ls = limbsVal (ls.take n) + radix ^ n * limbsVal (ls.drop n) := by
  conv_lhs => rw [← List.take_append_drop n ls]
  rw [limbsVal_append, List.length_take, min_eq_left h]

/-- A sequence whose last limb is not zero is at least radix^(length-1). -/
theorem radix_pow_le_limbsVal (ls : List Word) (hne : ls ≠ []) (h : ls.getLast hne ≠ 0) :
    radix ^ (ls.length - 1) ≤ limbsVal ls := by
  have hs : ls = ls.dropLast ++ [ls.getLast hne] := (List.dropLast_append_getLast hne).symm
  have hv : limbsVal ls = limbsVal ls.dropLast + radix ^ (ls.length - 1) * (ls.getLast hne).toNat := by
    conv_lhs => rw [hs, limbsVal_append]
    simp
  have : 1 ≤ (ls.getLast hne).toNat := by
    rcases Nat.eq_zero_or_pos (ls.getLast hne).toNat with h0 | h0
    · exact absurd (BitVec.eq_of_toNat_eq (by simpa using h0)) h
    · exact h0
  calc radix ^ (ls.length - 1) ≤ radix ^ (ls.length - 1) * (ls.getLast hne).toNat :=
        Nat.le_mul_of_pos_right _ this
    _ ≤ limbsVal ls := by omega

/-! ### The limbs of a number -/

@[simp] theorem limbsOf_length (n v : Nat) : (limbsOf n v).length = n := by
  induction n generalizing v with
  | zero => rfl
  | succ n ih => simp [limbsOf, ih]

theorem limbsOf_getElem? (n v k : Nat) (h : k < n) : (limbsOf n v)[k]? = some (limbAt k v) := by
  induction n generalizing v k with
  | zero => omega
  | succ n ih =>
    cases k with
    | zero => simp [limbsOf, limbAt]
    | succ k =>
      simp only [limbsOf, List.getElem?_cons_succ]
      rw [ih _ _ (by omega), limbAt, limbAt, Nat.div_div_eq_div_mul, pow_succ']

theorem limbsOf_getD (n v k : Nat) (h : k < n) : (limbsOf n v).getD k 0 = limbAt k v := by
  simp [limbsOf_getElem? n v k h]

/-- The first `n` limbs of `v` represent v mod B^n. -/
theorem limbsVal_limbsOf (n v : Nat) : limbsVal (limbsOf n v) = v % radix ^ n := by
  induction n generalizing v with
  | zero => simp [limbsOf, Nat.mod_one]
  | succ n ih =>
    rw [limbsOf, limbsVal_cons, ofNat_toNat_mod, ih, pow_succ', Nat.mod_mul]

theorem limbsOf_take (n m v : Nat) (h : n ≤ m) : (limbsOf m v).take n = limbsOf n v := by
  induction n generalizing m v with
  | zero => simp [limbsOf]
  | succ n ih =>
    cases m with
    | zero => omega
    | succ m => simp [limbsOf, ih m _ (by omega)]

/-- A limb sequence is determined by its length and value. -/
theorem limbsOf_limbsVal (ls : List Word) : limbsOf ls.length (limbsVal ls) = ls := by
  induction ls with
  | nil => rfl
  | cons l ls ih =>
    have hl := word_lt_radix l
    have h1 : BitVec.ofNat 32 (l.toNat + radix * limbsVal ls) = l := by
      apply BitVec.eq_of_toNat_eq
      rw [ofNat_toNat_mod, Nat.add_mul_mod_self_left, Nat.mod_eq_of_lt hl]
    have h2 : (l.toNat + radix * limbsVal ls) / radix = limbsVal ls := by
      rw [Nat.add_mul_div_left _ _ (by simp [radix]), Nat.div_eq_of_lt hl, zero_add]
    simp only [List.length_cons, limbsVal_cons, limbsOf, h1, h2, ih]

theorem limbs_eq_of_limbsVal (a b : List Word) (hl : a.length = b.length)
    (hv : limbsVal a = limbsVal b) : a = b := by
  rw [← limbsOf_limbsVal a, ← limbsOf_limbsVal b, hl, hv]

theorem limbAt_limbsVal (ls : List Word) (k : Nat) : limbAt k (limbsVal ls) = ls.getD k 0 := by
  induction ls generalizing k with
  | nil => simp [limbAt]
  | cons l ls ih =>
    have hl := word_lt_radix l
    cases k with
    | zero =>
      apply BitVec.eq_of_toNat_eq
      simp only [limbAt, pow_zero, Nat.div_one, ofNat_toNat_mod, limbsVal_cons]
      rw [Nat.add_mul_mod_self_left, Nat.mod_eq_of_lt hl]; simp
    | succ k =>
      rw [limbAt, pow_succ', ← Nat.div_div_eq_div_mul, limbsVal_cons,
        Nat.add_mul_div_left _ _ (by simp [radix]), Nat.div_eq_of_lt hl, zero_add]
      simpa [limbAt] using ih k

/-! ### nlimbs -/

@[simp] theorem nlimbs_zero : nlimbs 0 = 0 := rfl

/-- `nlimbs v` is the least n with v < B^n (00_scope.md R15). -/
theorem nlimbs_le_iff (v n : Nat) : nlimbs v ≤ n ↔ v < radix ^ n := by
  unfold nlimbs
  by_cases h : v = 0
  · simp [h, radix]
  · rw [if_neg h, show radix ^ n = 2 ^ (32 * n) by rw [radix, ← pow_mul], ← Nat.log2_lt h]
    omega

theorem lt_radix_pow_nlimbs (v : Nat) : v < radix ^ nlimbs v := (nlimbs_le_iff v _).1 le_rfl

theorem nlimbs_mono {a b : Nat} (h : a ≤ b) : nlimbs a ≤ nlimbs b :=
  (nlimbs_le_iff _ _).2 (lt_of_le_of_lt h (lt_radix_pow_nlimbs b))

theorem nlimbs_eq_zero (v : Nat) : nlimbs v = 0 ↔ v = 0 := by
  rw [← Nat.le_zero, nlimbs_le_iff]; simp

theorem nlimbs_limbsVal_le (ls : List Word) : nlimbs (limbsVal ls) ≤ ls.length :=
  (nlimbs_le_iff _ _).2 (limbsVal_lt ls)

/-- A sequence with no zero limb at its end has as many limbs as its value needs. -/
theorem nlimbs_limbsVal (ls : List Word) (h : ∀ hne : ls ≠ [], ls.getLast hne ≠ 0) :
    nlimbs (limbsVal ls) = ls.length := by
  apply le_antisymm (nlimbs_limbsVal_le ls)
  by_cases hne : ls = []
  · simp [hne]
  · by_contra hlt
    have h1 := radix_pow_le_limbsVal ls hne (h hne)
    have h2 := (nlimbs_le_iff (limbsVal ls) (ls.length - 1)).1 (by omega)
    omega

theorem limbAt_eq_zero (k v : Nat) (h : nlimbs v ≤ k) : limbAt k v = 0 := by
  rw [limbAt, Nat.div_eq_of_lt ((nlimbs_le_iff v k).1 h)]; rfl

theorem limbAt_top_ne_zero (v : Nat) (h : v ≠ 0) : limbAt (nlimbs v - 1) v ≠ 0 := by
  have hn : nlimbs v ≠ 0 := by rwa [ne_eq, nlimbs_eq_zero]
  have h1 : radix ^ (nlimbs v - 1) ≤ v := by
    by_contra hlt
    have := (nlimbs_le_iff v (nlimbs v - 1)).2 (by omega)
    omega
  have h2 : v < radix ^ (nlimbs v - 1) * radix := by
    rw [← pow_succ, Nat.sub_add_cancel (by omega)]; exact lt_radix_pow_nlimbs v
  have h3 : 0 < v / radix ^ (nlimbs v - 1) := Nat.div_pos h1 (by simp [radix])
  have h4 : v / radix ^ (nlimbs v - 1) < radix := Nat.div_lt_of_lt_mul h2
  intro h0
  rw [limbAt, ofNat_eq_zero_iff, Nat.mod_eq_of_lt h4] at h0
  omega

/-! ### The trim -/

theorem limbsVal_trimLimbs (ls : List Word) : limbsVal (trimLimbs ls) = limbsVal ls := by
  induction ls with
  | nil => rfl
  | cons l ls ih =>
    rw [trimLimbs]
    split
    · rename_i h
      have : limbsVal ls = 0 := by rw [← ih, h.1]; rfl
      simp [this, h.2]
    · simp [ih]

theorem trimLimbs_getLast (ls : List Word) (hne : trimLimbs ls ≠ []) :
    (trimLimbs ls).getLast hne ≠ 0 := by
  induction ls with
  | nil => exact absurd rfl hne
  | cons l ls ih =>
    by_cases h : trimLimbs ls = [] ∧ l = 0
    · exact absurd (by rw [trimLimbs, if_pos h]) hne
    · have e : trimLimbs (l :: ls) = l :: trimLimbs ls := by rw [trimLimbs, if_neg h]
      simp only [e]
      by_cases ht : trimLimbs ls = []
      · simp only [ht, List.getLast_singleton]
        exact fun h0 => h ⟨ht, h0⟩
      · rw [List.getLast_cons ht]; exact ih ht

/-- The trimmed length is the length the value needs. -/
theorem trimLimbs_length (ls : List Word) : (trimLimbs ls).length = nlimbs (limbsVal ls) := by
  rw [← limbsVal_trimLimbs ls, nlimbs_limbsVal _ (trimLimbs_getLast ls)]

/-! ### clz32 -/

/-- 2^clz32 is the power of two that brings a non-zero limb to at least radix/2, within 32 bits
(44_divide.md R485). -/
theorem clz32_scales (w : Word) (h : w ≠ 0) :
    radix / 2 ≤ w.toNat * 2 ^ clz32 w ∧ w.toNat * 2 ^ clz32 w < radix := by
  have h0 : w.toNat ≠ 0 := fun e => h (BitVec.eq_of_toNat_eq (by simpa using e))
  have h1 := Nat.log2_self_le h0
  have h2 : w.toNat < 2 ^ (w.toNat.log2 + 1) := (Nat.log2_lt h0).1 (Nat.lt_succ_self _)
  have h3 : w.toNat.log2 < 32 := (Nat.log2_lt h0).2 w.isLt
  have e1 : 2 ^ w.toNat.log2 * 2 ^ clz32 w = 2 ^ 31 := by
    rw [← pow_add, clz32]; congr 1; omega
  have e2 : 2 ^ (w.toNat.log2 + 1) * 2 ^ clz32 w = 2 ^ 32 := by
    rw [← pow_add, clz32]; congr 1; omega
  have hp : 0 < 2 ^ clz32 w := by positivity
  constructor
  · calc radix / 2 = 2 ^ 31 := by norm_num [radix]
      _ = 2 ^ w.toNat.log2 * 2 ^ clz32 w := e1.symm
      _ ≤ _ := Nat.mul_le_mul_right _ h1
  · calc w.toNat * 2 ^ clz32 w < 2 ^ (w.toNat.log2 + 1) * 2 ^ clz32 w := Nat.mul_lt_mul_of_pos_right h2 hp
      _ = radix := e2

end Sys2Proof.Machine
end

