-- ==== Sys2Proof/Laws/AddSub.lean ====
section
/-! SUPPORT. What the adder and the subtractor compute (42_add_sub.md R441, R443, R447, R448). -/

namespace Sys2Proof.Machine

theorem addLoop_val (n c : Nat) (a b : List Word) (ha : a.length ≤ n) (hb : b.length ≤ n)
    (hc : c ≤ 1) : limbsVal (addLoop n c a b) = c + limbsVal a + limbsVal b := by
  induction n generalizing c a b with
  | zero =>
    obtain rfl : a = [] := List.length_eq_zero_iff.1 (by omega)
    obtain rfl : b = [] := List.length_eq_zero_iff.1 (by omega)
    obtain rfl | rfl : c = 0 ∨ c = 1 := by omega
    · rfl
    · rfl
  | succ n ih =>
    have h1 := word_lt_radix (a.headD 0)
    have h2 := word_lt_radix (b.headD 0)
    rw [addLoop, limbsVal_cons, ofNat_toNat_mod, limbsVal_head_tail a, limbsVal_head_tail b,
      ih _ _ _ (by simp; omega) (by simp; omega)]
    · have := Nat.mod_add_div (c + (a.headD 0).toNat + (b.headD 0).toNat) radix
      rw [Nat.mul_add, Nat.mul_add]
      omega
    · have : (c + (a.headD 0).toNat + (b.headD 0).toNat) / radix < 2 :=
        Nat.div_lt_of_lt_mul (by omega)
      omega

/-- The adder gives the sum of the represented values. -/
theorem adder_val (a b : List Word) : limbsVal (adder a b) = limbsVal a + limbsVal b := by
  rw [adder, addLoop_val _ _ _ _ (le_max_left _ _) (le_max_right _ _) (by omega)]; omega

theorem addLoop_length_le (n c : Nat) (a b : List Word) : n ≤ (addLoop n c a b).length := by
  induction n generalizing c a b with
  | zero => omega
  | succ n ih => rw [addLoop]; simpa using ih _ _ _

theorem addLoop_length (n c : Nat) (a b : List Word) (ha : a.length ≤ n) (hb : b.length ≤ n)
    (hc : c ≤ 1) :
    (addLoop n c a b).length = if c + limbsVal a + limbsVal b < radix ^ n then n else n + 1 := by
  induction n generalizing c a b with
  | zero =>
    obtain rfl : a = [] := List.length_eq_zero_iff.1 (by omega)
    obtain rfl : b = [] := List.length_eq_zero_iff.1 (by omega)
    obtain rfl | rfl : c = 0 ∨ c = 1 := by omega
    · rfl
    · rfl
  | succ n ih =>
    have h1 := word_lt_radix (a.headD 0)
    have h2 := word_lt_radix (b.headD 0)
    have h3 : (c + (a.headD 0).toNat + (b.headD 0).toNat) / radix < 2 :=
      Nat.div_lt_of_lt_mul (by omega)
    rw [addLoop, List.length_cons, ih _ _ _ (by simp; omega) (by simp; omega) (by omega)]
    have key : c + limbsVal a + limbsVal b < radix ^ (n + 1) ↔
        (c + (a.headD 0).toNat + (b.headD 0).toNat) / radix + limbsVal a.tail + limbsVal b.tail
          < radix ^ n := by
      have e : c + limbsVal a + limbsVal b = (c + (a.headD 0).toNat + (b.headD 0).toNat)
          + radix * (limbsVal a.tail + limbsVal b.tail) := by
        rw [limbsVal_head_tail a, limbsVal_head_tail b, Nat.mul_add]; omega
      rw [pow_succ, ← Nat.div_lt_iff_lt_mul (by simp [radix]), e,
        Nat.add_mul_div_left _ _ (by simp [radix]), ← Nat.add_assoc]
    by_cases h : c + limbsVal a + limbsVal b < radix ^ (n + 1)
    · rw [if_pos h, if_pos (key.1 h)]
    · rw [if_neg h, if_neg (mt key.2 h)]

/-- A normalised limb sequence: no zero limb at its most significant end (10_state.md R102). -/
def NoLeadingZero (ls : List Word) : Prop := ∀ hne : ls ≠ [], ls.getLast hne ≠ 0

theorem NoLeadingZero.nlimbs_val {ls : List Word} (h : NoLeadingZero ls) :
    nlimbs (limbsVal ls) = ls.length := nlimbs_limbsVal ls h

/-- For normalised operands the adder's result needs no trimming (42_add_sub.md R443 item 5). -/
theorem adder_length (a b : List Word) (ha : NoLeadingZero a) (hb : NoLeadingZero b) :
    (adder a b).length = nlimbs (limbsVal a + limbsVal b) := by
  have hle : nlimbs (limbsVal a + limbsVal b) ≤ (adder a b).length := by
    rw [← adder_val]; exact nlimbs_limbsVal_le _
  refine le_antisymm ?_ hle
  rw [adder, addLoop_length _ _ _ _ (le_max_left _ _) (le_max_right _ _) (by omega)]
  have hm : max a.length b.length ≤ nlimbs (limbsVal a + limbsVal b) := by
    refine max_le ?_ ?_
    · rw [← ha.nlimbs_val]; exact nlimbs_mono (by omega)
    · rw [← hb.nlimbs_val]; exact nlimbs_mono (by omega)
  split
  · exact hm
  · rename_i h
    by_contra hlt
    exact h (by rw [zero_add]; exact (nlimbs_le_iff _ _).1 (by omega))

/-- Without a final borrow the subtractor's loop gives the difference. -/
theorem subLoop_val (c : Nat) (a b : List Word) (hb : b.length ≤ a.length) (hc : c ≤ 1)
    (h : c + limbsVal b ≤ limbsVal a) : limbsVal (subLoop c a b) + c + limbsVal b = limbsVal a := by
  induction a generalizing c b with
  | nil =>
    obtain rfl : b = [] := List.length_eq_zero_iff.1 (by simpa using hb)
    simp at h
    simp [subLoop, h]
  | cons x xs ih =>
    have hx := word_lt_radix x
    have hy := word_lt_radix (b.headD 0)
    rw [subLoop, limbsVal_cons, limbsVal_cons]
    rw [limbsVal_head_tail b, limbsVal_cons] at h
    rw [limbsVal_head_tail b]
    have ht : b.tail.length ≤ xs.length := by simp at hb ⊢; omega
    have hsub : (x - BitVec.ofNat 32 (c + (b.headD 0).toNat)).toNat
        = (radix - (c + (b.headD 0).toNat) % radix + x.toNat) % radix := by
      rw [BitVec.toNat_sub, ofNat_toNat_mod]
    rw [hsub]
    generalize hy' : (b.headD 0).toNat = y at *
    by_cases hlt : x.toNat < c + y
    · rw [if_pos hlt]
      have := ih 1 b.tail ht le_rfl (by nlinarith)
      have hm : (radix - (c + y) % radix + x.toNat) % radix = radix + x.toNat - (c + y) := by
        rcases Nat.lt_or_ge (c + y) radix with h1 | h1
        · rw [Nat.mod_eq_of_lt h1, Nat.mod_eq_of_lt (by omega)]; omega
        · have : c + y = radix := by omega
          rw [this, Nat.mod_self]; simp only [Nat.sub_zero, Nat.add_mod_left]
          rw [Nat.mod_eq_of_lt hx]; omega
      rw [hm, ← this]
      have : radix * (limbsVal (subLoop 1 xs b.tail) + 1 + limbsVal b.tail) =
        radix * limbsVal (subLoop 1 xs b.tail) + radix + radix * limbsVal b.tail := by ring
      omega
    · rw [if_neg hlt]
      have hcy : c + y < radix := by omega
      have := ih 0 b.tail ht (by omega) (by
        by_contra hcon
        have : radix * (limbsVal xs + 1) ≤ radix * limbsVal b.tail := Nat.mul_le_mul_left _ (by omega)
        rw [Nat.mul_add] at this
        omega)
      have hm : (radix - (c + y) % radix + x.toNat) % radix = x.toNat - (c + y) := by
        rw [Nat.mod_eq_of_lt hcy, show radix - (c + y) + x.toNat = (x.toNat - (c + y)) + radix by omega,
          Nat.add_mod_right, Nat.mod_eq_of_lt (by omega)]
      rw [hm, ← this]
      have : radix * (limbsVal (subLoop 0 xs b.tail) + 0 + limbsVal b.tail) =
        radix * limbsVal (subLoop 0 xs b.tail) + radix * limbsVal b.tail := by ring
      omega

/-- The subtractor gives the difference when the minuend is not less (42_add_sub.md R447). -/
theorem subtractor_val (a b : List Word) (hb : b.length ≤ a.length) (h : limbsVal b ≤ limbsVal a) :
    limbsVal (subtractor a b) = limbsVal a - limbsVal b := by
  rw [subtractor, limbsVal_trimLimbs]
  have := subLoop_val 0 a b hb (by omega) (by omega)
  omega

end Sys2Proof.Machine
end

