-- ==== Sys2Proof/Laws/Encoding.lean ====
section
/-! SUPPORT. The fields of a word built from fields, masks field by field, and the register fields
(30_encoding.md R300 to R303). -/

namespace Sys2Proof

@[simp] theorem regOfBits_bitsOfReg (r : RegIx) : regOfBits (bitsOfReg r) = r := by
  apply Fin.ext
  simp only [regOfBits, bitsOfReg, BitVec.toNat_ofNat]
  exact Nat.mod_eq_of_lt r.isLt

@[simp] theorem bitsOfReg_regOfBits (b : BitVec 4) : bitsOfReg (regOfBits b) = b := by
  apply BitVec.eq_of_toNat_eq
  simp only [regOfBits, bitsOfReg, BitVec.toNat_ofNat]
  exact Nat.mod_eq_of_lt b.isLt

theorem toNat_append_eq {m n : Nat} (x : BitVec m) (y : BitVec n) :
    (x ++ y).toNat = x.toNat * 2 ^ n + y.toNat := by
  rw [BitVec.toNat_append, ← Nat.shiftLeft_add_eq_or_of_lt y.isLt, Nat.shiftLeft_eq]

theorem extract_toNat (w : Word) (lo n : Nat) :
    (w.extractLsb' lo n).toNat = w.toNat / 2 ^ lo % 2 ^ n := by
  rw [BitVec.extractLsb'_toNat, Nat.shiftRight_eq_div_pow]

theorem mkWord_toNat (o : BitVec 8) (d a b c : BitVec 4) (i : BitVec 8) :
    (mkWord o d a b c i).toNat = ((((o.toNat * 16 + d.toNat) * 16 + a.toNat) * 16 + b.toNat) * 16
      + c.toNat) * 256 + i.toNat := by
  simp only [mkWord, toNat_append_eq]
  norm_num

/-- A word is built from its own fields. -/
theorem mkWord_fields (w : Word) :
    mkWord (opField w) (rdField w) (rs1Field w) (rs2Field w) (rs3Field w) (imm8Field w) = w := by
  apply BitVec.eq_of_toNat_eq
  have := w.isLt
  simp only [mkWord_toNat, opField, rdField, rs1Field, rs2Field, rs3Field, imm8Field, extract_toNat]
  omega

section
variable (o : BitVec 8) (d a b c : BitVec 4) (i : BitVec 8)

/-- The fields of a word built from fields. -/
theorem fields_mkWord :
    opField (mkWord o d a b c i) = o ∧ rdField (mkWord o d a b c i) = d
      ∧ rs1Field (mkWord o d a b c i) = a ∧ rs2Field (mkWord o d a b c i) = b
      ∧ rs3Field (mkWord o d a b c i) = c ∧ imm8Field (mkWord o d a b c i) = i := by
  have := o.isLt; have := d.isLt; have := a.isLt; have := b.isLt; have := c.isLt; have := i.isLt
  refine ⟨?_, ?_, ?_, ?_, ?_, ?_⟩ <;> apply BitVec.eq_of_toNat_eq <;>
    simp only [opField, rdField, rs1Field, rs2Field, rs3Field, imm8Field, extract_toNat,
      mkWord_toNat] <;> omega

@[simp] theorem opField_mkWord : opField (mkWord o d a b c i) = o := (fields_mkWord o d a b c i).1
@[simp] theorem rdField_mkWord : rdField (mkWord o d a b c i) = d := (fields_mkWord o d a b c i).2.1
@[simp] theorem rs1Field_mkWord : rs1Field (mkWord o d a b c i) = a :=
  (fields_mkWord o d a b c i).2.2.1
@[simp] theorem rs2Field_mkWord : rs2Field (mkWord o d a b c i) = b :=
  (fields_mkWord o d a b c i).2.2.2.1
@[simp] theorem rs3Field_mkWord : rs3Field (mkWord o d a b c i) = c :=
  (fields_mkWord o d a b c i).2.2.2.2.1
@[simp] theorem imm8Field_mkWord : imm8Field (mkWord o d a b c i) = i :=
  (fields_mkWord o d a b c i).2.2.2.2.2

end

/-- Words are equal field by field. -/
theorem mkWord_inj (o o' : BitVec 8) (d a b c d' a' b' c' : BitVec 4) (i i' : BitVec 8) :
    mkWord o d a b c i = mkWord o' d' a' b' c' i'
      ↔ o = o' ∧ d = d' ∧ a = a' ∧ b = b' ∧ c = c' ∧ i = i' := by
  constructor
  · intro h
    exact ⟨by simpa using congrArg opField h, by simpa using congrArg rdField h,
      by simpa using congrArg rs1Field h, by simpa using congrArg rs2Field h,
      by simpa using congrArg rs3Field h, by simpa using congrArg imm8Field h⟩
  · rintro ⟨rfl, rfl, rfl, rfl, rfl, rfl⟩; rfl

/-- A mask acts field by field (R302). -/
theorem mkWord_and (o o' : BitVec 8) (d a b c d' a' b' c' : BitVec 4) (i i' : BitVec 8) :
    mkWord o d a b c i &&& mkWord o' d' a' b' c' i'
      = mkWord (o &&& o') (d &&& d') (a &&& a') (b &&& b') (c &&& c') (i &&& i') := by
  simp only [mkWord]
  iterate 5 rw [BitVec.and_append]

/-- A word under a mask, in terms of its fields (R303). -/
theorem word_and_eq (w : Word) (o o' : BitVec 8) (d a b c d' a' b' c' : BitVec 4) (i i' : BitVec 8) :
    w &&& mkWord o d a b c i = mkWord o' d' a' b' c' i'
      ↔ opField w &&& o = o' ∧ rdField w &&& d = d' ∧ rs1Field w &&& a = a' ∧ rs2Field w &&& b = b'
        ∧ rs3Field w &&& c = c' ∧ imm8Field w &&& i = i' := by
  conv_lhs => rw [← mkWord_fields w]
  rw [mkWord_and, mkWord_inj]

/-! ### The opcode map (R303, R304) -/

/-- A word that spells a row's command has the row's op field: every mask keeps all of op. -/
theorem spells_opField {r : Row} (hr : r ∈ opcodeMap) {w : Word} (h : r.spells w = true) :
    opField w = opField r.pattern := by
  have hm : ∀ r ∈ opcodeMap, opField r.mask = 0xFF := by decide +kernel
  have h1 : w &&& r.mask = r.pattern := by simpa [Row.spells] using h
  rw [← h1]
  apply BitVec.eq_of_getLsbD_eq
  intro j hj
  have h3 := congrArg (·.getLsbD j) (hm r hr)
  simp only [opField, BitVec.getLsbD_extractLsb', BitVec.getLsbD_and, hj, decide_true,
    Bool.true_and] at h3 ⊢
  have : ∀ j, j < 8 → (0xFF : BitVec 8).getLsbD j = true := by decide
  rw [h3, this j hj, Bool.and_true]

theorem find?_of_pairwise {α : Type} {p : α → Bool} (l : List α) (r : α) (hr : r ∈ l) (hp : p r = true)
    (hu : l.Pairwise fun a b => ¬(p a = true ∧ p b = true)) : l.find? p = some r := by
  induction l with
  | nil => simp at hr
  | cons a l ih =>
    rw [List.pairwise_cons] at hu
    rcases List.mem_cons.1 hr with rfl | h
    · simp [hp]
    · have hpa : p a = false := by
        by_contra h'
        exact hu.1 r h ⟨by simpa using h', hp⟩
      rw [List.find?_cons, hpa]
      exact ih h hu.2

/-- No word spells two commands: decoding by any row that matches. -/
theorem decode_eq_ok_iff (w : Word) (i : Instr) :
    decode w = .ok i ↔ ∃ r ∈ opcodeMap, r.spells w = true ∧ r.build w = i := by
  have hpw : opcodeMap.Pairwise fun a b => opField a.pattern ≠ opField b.pattern := by decide +kernel
  simp only [decode]
  constructor
  · intro h
    split at h
    · rename_i r hf
      exact ⟨r, List.mem_of_find?_eq_some hf, by simpa using List.find?_some hf, by simpa using h⟩
    · cases h
  · rintro ⟨r, hr, hs, rfl⟩
    rw [find?_of_pairwise opcodeMap r hr hs]
    refine List.Pairwise.imp_of_mem ?_ hpw
    intro a b ha hb hne ⟨h1, h2⟩
    exact hne ((spells_opField ha h1).symm.trans (spells_opField hb h2))

/-- A word is illegal exactly when it spells no row's command (R305). -/
theorem decode_eq_error_iff (w : Word) :
    (∃ e, decode w = .error e) ↔ ∀ r ∈ opcodeMap, r.spells w = false := by
  simp only [decode]
  cases h : opcodeMap.find? (·.spells w) with
  | none =>
    rw [List.find?_eq_none] at h
    simpa using h
  | some r =>
    have h1 := List.mem_of_find?_eq_some h
    have h2 := List.find?_some h
    simp only [reduceCtorEq, exists_false, false_iff, not_forall, Bool.not_eq_false]
    exact ⟨r, h1, by simpa using h2⟩

/-- A row's match, field by field (R303). -/
theorem spells_iff (w : Word) (o o' : BitVec 8) (d a b c d' a' b' c' : BitVec 4) (i i' : BitVec 8)
    (build : Word → Instr) :
    (Row.mk (mkWord o' d' a' b' c' i') (mkWord o d a b c i) build).spells w = true
      ↔ opField w &&& o = o' ∧ rdField w &&& d = d' ∧ rs1Field w &&& a = a' ∧ rs2Field w &&& b = b'
        ∧ rs3Field w &&& c = c' ∧ imm8Field w &&& i = i' := by
  simp only [Row.spells, beq_iff_eq]; exact word_and_eq ..

end Sys2Proof
end

