-- ==== Sys2Proof/Laws/Comparator.lean ====
section
/-! SUPPORT. What the comparator decides (41_comparator.md R421, R422). -/

namespace Sys2Proof.Machine

theorem compareDown_eq (a b : List Word) (n : Nat) (ha : n ≤ a.length) (hb : n ≤ b.length) :
    compareDown a b n = compare (limbsVal (a.take n)) (limbsVal (b.take n)) := by
  induction n with
  | zero => simp [compareDown]
  | succ n ih =>
    have key : ∀ l : List Word, n + 1 ≤ l.length →
        limbsVal (l.take (n + 1)) = limbsVal (l.take n) + radix ^ n * (l.getD n 0).toNat := by
      intro l hl
      rw [List.take_succ_eq_append_getElem (by omega), limbsVal_append, List.length_take,
        min_eq_left (by omega)]
      simp [List.getElem?_eq_getElem (show n < l.length by omega)]
    have hA : limbsVal (a.take n) < radix ^ n := by
      have := limbsVal_lt (a.take n); rwa [List.length_take, min_eq_left (by omega)] at this
    have hB : limbsVal (b.take n) < radix ^ n := by
      have := limbsVal_lt (b.take n); rwa [List.length_take, min_eq_left (by omega)] at this
    have step : ∀ x y : Nat, x < y → radix ^ n * x + radix ^ n ≤ radix ^ n * y := by
      intro x y h
      calc radix ^ n * x + radix ^ n = radix ^ n * (x + 1) := by ring
        _ ≤ _ := Nat.mul_le_mul_left _ h
    rw [compareDown, key a ha, key b hb, ih (by omega) (by omega)]
    by_cases h1 : a.getD n 0 < b.getD n 0
    · rw [if_pos h1]
      have := step _ _ (BitVec.lt_def.1 h1)
      exact (Nat.compare_eq_lt.2 (by omega)).symm
    · rw [if_neg h1]
      by_cases h2 : b.getD n 0 < a.getD n 0
      · rw [if_pos h2]
        have := step _ _ (BitVec.lt_def.1 h2)
        exact (Nat.compare_eq_gt.2 (by omega)).symm
      · rw [if_neg h2]
        have h3 : (a.getD n 0).toNat = (b.getD n 0).toNat := by
          rw [BitVec.lt_def] at h1 h2; omega
        rw [h3, Nat.compare_eq_ite_lt, Nat.compare_eq_ite_lt]
        simp only [Nat.add_lt_add_iff_right]

/-- On normalised operands the comparator orders the represented values (R422). -/
theorem compareLimbs_eq (a b : List Word) (ha : NoLeadingZero a) (hb : NoLeadingZero b) :
    compareLimbs a b = compare (limbsVal a) (limbsVal b) := by
  have hlt : ∀ x y : List Word, NoLeadingZero y → x.length < y.length → limbsVal x < limbsVal y := by
    intro x y hy h
    by_contra hcon
    have := nlimbs_mono (Nat.le_of_not_lt hcon)
    rw [hy.nlimbs_val] at this
    have := nlimbs_limbsVal_le x
    omega
  rw [compareLimbs]
  by_cases h1 : a.length < b.length
  · rw [if_pos h1, Nat.compare_eq_lt.2 (hlt a b hb h1)]
  · rw [if_neg h1]
    by_cases h2 : b.length < a.length
    · rw [if_pos h2, Nat.compare_eq_gt.2 (hlt b a ha h2)]
    · rw [if_neg h2, compareDown_eq a b _ le_rfl (by omega), List.take_length,
        show a.length = b.length by omega, List.take_length]

end Sys2Proof.Machine
end

