-- ==== Sys2Proof/Laws/Divide.lean ====
section
/-! SUPPORT. What the long divider computes: every case of the dispatch gives the floor quotient and the
remainder (44_divide.md R481 to R489), Knuth's Algorithm D with its one add-back among them. -/

namespace Sys2Proof.Machine

/-! ### Short division (R484) -/

theorem shortDiv_spec (d : Nat) (hd : 0 < d) (ls : List Word) :
    limbsVal ls = d * limbsVal (shortDiv d ls).1 + (shortDiv d ls).2 ∧ (shortDiv d ls).2 < d ∧
      (shortDiv d ls).1.length = ls.length := by
  induction ls with
  | nil => simp [shortDiv, hd]
  | cons l ls ih =>
    obtain ⟨h1, h2, h3⟩ := ih
    have hl := word_lt_radix l
    simp only [shortDiv]
    generalize hq : (shortDiv d ls).1 = q at *
    generalize hr : (shortDiv d ls).2 = r at *
    refine ⟨?_, Nat.mod_lt _ hd, by simp [h3]⟩
    have hlt : (r * radix + l.toNat) / d < radix := by
      apply Nat.div_lt_of_lt_mul
      calc r * radix + l.toNat < r * radix + radix := by omega
        _ = (r + 1) * radix := by ring
        _ ≤ d * radix := Nat.mul_le_mul_right _ h2
    have hm := Nat.div_add_mod (r * radix + l.toNat) d
    rw [limbsVal_cons, limbsVal_cons, ofNat_toNat_mod, Nat.mod_eq_of_lt hlt, h1, Nat.mul_add]
    have : d * (radix * limbsVal q) = radix * (d * limbsVal q) := by ring
    rw [Nat.mul_add, this, mul_comm radix r]
    omega

/-! ### One quotient digit (R486 to R488) -/

/-- The refinement keeps vTop·qhat + rhat, never passes below a digit that fits, and ends with a pair
that passes the cross-check (R487). -/
theorem refineTrial_spec (vTop vNext uNext num : Nat) (fuel qhat rhat : Nat) (hf : qhat ≤ fuel)
    (h : qhat * vTop + rhat = num) (hq : qhat < radix) (hv : vNext < radix) :
    let r := refineTrial vTop vNext uNext fuel qhat rhat
    r.1 ≤ qhat ∧ r.1 * vTop + r.2 = num ∧ r.1 * vNext ≤ r.2 * radix + uNext ∧
      ∀ q, q ≤ qhat → q * (vTop * radix + vNext) ≤ num * radix + uNext → q ≤ r.1 := by
  induction fuel generalizing qhat rhat with
  | zero =>
    obtain rfl : qhat = 0 := by omega
    simp only [refineTrial]
    exact ⟨le_rfl, h, by simp, fun q hq _ => hq⟩
  | succ fuel ih =>
    rw [refineTrial]
    split
    · rename_i hc
      have hpos : 0 < qhat := by
        rcases Nat.eq_zero_or_pos qhat with h0 | h0
        · rw [h0] at hc; omega
        · exact h0
      obtain ⟨k, rfl⟩ : ∃ k, qhat = k + 1 := ⟨qhat - 1, by omega⟩
      simp only [Nat.add_sub_cancel]
      obtain ⟨i1, i2, i3, i4⟩ := ih k (rhat + vTop) (by omega) (by rw [← h]; ring) (by omega)
      refine ⟨by omega, i2, i3, fun q hq hfit => i4 q ?_ hfit⟩
      by_contra hcon
      obtain rfl : q = k + 1 := by omega
      have : (k + 1) * (vTop * radix + vNext) = ((k + 1) * vTop) * radix + (k + 1) * vNext := by ring
      have e : ((k + 1) * vTop + rhat) * radix = (k + 1) * vTop * radix + rhat * radix := by ring
      rw [this, ← h, e] at hfit
      omega
    · rename_i hc
      refine ⟨le_rfl, h, ?_, fun q hq _ => hq⟩
      show qhat * vNext ≤ rhat * radix + uNext
      by_cases hr : rhat < radix
      · by_contra hcon; exact hc ⟨hr, by omega⟩
      · have h1 : qhat * vNext ≤ radix * radix := Nat.mul_le_mul (by omega) (by omega)
        have h2 : radix * radix ≤ rhat * radix := Nat.mul_le_mul_right _ (by omega)
        omega

/-- The trial digit is the true digit or one more (R487): `w` is the window, `d` the divisor, `p` the
weight of the third limb from the top. -/
theorem trialDigit_spec (num vTop vNext uNext p w d : Nat) (hp : 0 < p)
    (hTop : radix / 2 ≤ vTop) (hNext : vNext < radix)
    (hd1 : (vTop * radix + vNext) * p ≤ d) (hd2 : d < (vTop * radix + vNext + 1) * p)
    (hw1 : (num * radix + uNext) * p ≤ w) (hw2 : w < (num * radix + uNext + 1) * p)
    (huNext : uNext < radix) (hwd : w < d * radix) :
    w / d ≤ trialDigit num vTop vNext uNext ∧ trialDigit num vTop vNext uNext ≤ w / d + 1 ∧
      trialDigit num vTop vNext uNext < radix := by
  have hTop0 : 0 < vTop := lt_of_lt_of_le (by norm_num [radix]) hTop
  have hd0 : 0 < d := lt_of_lt_of_le (by positivity) hd1
  have hc : clampedTrial num vTop < radix := by
    have : clampedTrial num vTop ≤ radix - 1 := min_le_right _ _
    have : 0 < radix := by norm_num [radix]
    omega
  have hcv : clampedTrial num vTop * vTop ≤ num :=
    le_trans (Nat.mul_le_mul_right _ (min_le_left _ _)) (Nat.div_mul_le_self num vTop)
  obtain ⟨h1, h2, h3, h4⟩ := refineTrial_spec vTop vNext uNext num (clampedTrial num vTop)
    (clampedTrial num vTop) (num - clampedTrial num vTop * vTop) le_rfl (by omega) hc hNext
  have htd : trialDigit num vTop vNext uNext = (refineTrial vTop vNext uNext
    (clampedTrial num vTop) (clampedTrial num vTop) (num - clampedTrial num vTop * vTop)).1 := rfl
  rw [htd]
  generalize hR : refineTrial vTop vNext uNext (clampedTrial num vTop) (clampedTrial num vTop)
    (num - clampedTrial num vTop * vTop) = R at *
  obtain ⟨qh, rh⟩ := R
  simp only at h1 h2 h3 h4 ⊢
  have hq : w / d * d ≤ w := Nat.div_mul_le_self w d
  have hqlt : w / d < radix := Nat.div_lt_of_lt_mul hwd
  -- the true digit fits the three-limb test
  have hfit : w / d * (vTop * radix + vNext) ≤ num * radix + uNext := by
    have : w / d * (vTop * radix + vNext) * p < (num * radix + uNext + 1) * p := by
      calc w / d * (vTop * radix + vNext) * p = w / d * ((vTop * radix + vNext) * p) := by ring
        _ ≤ w / d * d := Nat.mul_le_mul_left _ hd1
        _ < _ := lt_of_le_of_lt hq hw2
    have := Nat.lt_of_mul_lt_mul_right this
    omega
  have hle : w / d ≤ clampedTrial num vTop := by
    refine le_min ?_ (by omega)
    rw [Nat.le_div_iff_mul_le hTop0]
    have h5 : w / d * vTop * radix < (num + 1) * radix := by
      calc w / d * vTop * radix ≤ w / d * (vTop * radix + vNext) := by
            rw [Nat.mul_assoc]; exact Nat.mul_le_mul_left _ (by omega)
        _ ≤ num * radix + uNext := hfit
        _ < (num + 1) * radix := by rw [Nat.add_mul]; omega
    have := Nat.lt_of_mul_lt_mul_right h5
    omega
  refine ⟨h4 _ hle hfit, ?_, by omega⟩
  -- one less than the refined digit fits the window
  rcases Nat.eq_zero_or_pos qh with h0 | h0
  · rw [h0]; exact Nat.zero_le _
  obtain ⟨k, rfl⟩ : ∃ k, qh = k + 1 := ⟨qh - 1, by omega⟩
  have hk : k ≤ w / d := by
    rw [Nat.le_div_iff_mul_le hd0]
    have h6 : (k + 1) * (vTop * radix + vNext) ≤ num * radix + uNext := by
      have : (k + 1) * (vTop * radix + vNext) = (k + 1) * vTop * radix + (k + 1) * vNext := by ring
      have e : ((k + 1) * vTop + rh) * radix = (k + 1) * vTop * radix + rh * radix := by ring
      rw [this, ← h2, e]; omega
    have h7 : k ≤ vTop * radix + vNext := by
      have : radix ≤ vTop * radix := Nat.le_mul_of_pos_left _ hTop0
      omega
    calc k * d ≤ k * ((vTop * radix + vNext + 1) * p) := Nat.mul_le_mul_left _ hd2.le
      _ = (k * (vTop * radix + vNext) + k) * p := by ring
      _ ≤ ((k + 1) * (vTop * radix + vNext)) * p := by
          apply Nat.mul_le_mul_right
          rw [Nat.add_mul, Nat.one_mul]; omega
      _ ≤ (num * radix + uNext) * p := Nat.mul_le_mul_right _ h6
      _ ≤ w := hw1
  omega

/-- Multiply, compare, add back, subtract: from a trial digit that is right or one too large, the
digit and the remainder of the window (R488). -/
theorem correctDigit_spec (qhat w d : Nat) (hd : 0 < d) (h1 : w / d ≤ qhat) (h2 : qhat ≤ w / d + 1) :
    correctDigit qhat w d = (w / d, w % d) := by
  have hm := Nat.div_add_mod w d
  have hlt := Nat.mod_lt w hd
  rw [mul_comm] at hm
  rw [correctDigit]
  rcases (show qhat = w / d ∨ qhat = w / d + 1 by omega) with rfl | rfl
  · rw [if_neg (by omega)]
    exact Prod.ext rfl (by simp only; omega)
  · rw [if_pos (by rw [Nat.add_mul]; omega)]
    refine Prod.ext (by simp) ?_
    simp only
    rw [Nat.add_mul, Nat.one_mul, Nat.add_sub_cancel]
    omega

/-! ### The quotient loop (R486 to R489) -/

/-- Three limbs from the top of a sequence, as bounds on its value. -/
theorem top_two_limbs (ls : List Word) (n : Nat) (hl : ls.length = n + 2) :
    limbsVal ls = limbsVal (ls.take n)
      + ((ls.getD (n + 1) 0).toNat * radix + (ls.getD n 0).toNat) * radix ^ n := by
  rw [limbsVal_take_drop n ls (by omega)]
  have hd : ls.drop n = [ls.getD n 0, ls.getD (n + 1) 0] := by
    apply List.ext_getElem?
    intro i
    rw [List.getElem?_drop]
    match i with
    | 0 => simp [List.getElem?_eq_getElem (show n < ls.length by omega)]
    | 1 => simp [List.getElem?_eq_getElem (show n + 1 < ls.length by omega)]
    | i + 2 => simp; omega
  rw [hd]; simp only [limbsVal_cons, limbsVal_nil]; ring

theorem top_three_limbs (ls : List Word) (n : Nat) (hl : ls.length = n + 3) :
    limbsVal ls = limbsVal (ls.take n)
      + (((ls.getD (n + 2) 0).toNat * radix + (ls.getD (n + 1) 0).toNat) * radix
        + (ls.getD n 0).toNat) * radix ^ n := by
  rw [top_two_limbs ls (n + 1) hl,
    List.take_succ_eq_append_getElem (by omega), limbsVal_append, List.length_take,
    min_eq_left (by omega)]
  have : ls[n]'(by omega) = ls.getD n 0 := by
    simp [List.getElem?_eq_getElem (show n < ls.length by omega)]
  rw [this, limbsVal_cons, limbsVal_nil, pow_succ]; ring

theorem take_val_lt (ls : List Word) (n : Nat) (h : n ≤ ls.length) :
    limbsVal (ls.take n) < radix ^ n := by
  have := limbsVal_lt (ls.take n)
  rwa [List.length_take, min_eq_left h] at this

theorem limbsVal_take (ls : List Word) (n : Nat) (h : n ≤ ls.length) :
    limbsVal (ls.take n) = limbsVal ls % radix ^ n := by
  rw [limbsVal_take_drop n ls h, Nat.add_mul_mod_self_left, Nat.mod_eq_of_lt (take_val_lt ls n h)]

theorem limbsVal_drop (ls : List Word) (n : Nat) (h : n ≤ ls.length) :
    limbsVal (ls.drop n) = limbsVal ls / radix ^ n := by
  rw [limbsVal_take_drop n ls h, Nat.add_mul_div_left _ _ (by positivity),
    Nat.div_eq_of_lt (take_val_lt ls n h), zero_add]

theorem getD_drop_take (u : List Word) (jj m i : Nat) (hi : i < m) :
    ((u.drop jj).take m).getD i 0 = u.getD (jj + i) 0 := by
  simp [hi]

/-- One pass of the quotient loop divides the window by the divisor. -/
theorem knuthDigit_spec (v : List Word) (jj : Nat) (u : List Word) (hn : 2 ≤ v.length)
    (hTop : radix / 2 ≤ (v.getD (v.length - 1) 0).toNat) (hu : jj + v.length + 1 ≤ u.length)
    (hw : limbsVal ((u.drop jj).take (v.length + 1)) < limbsVal v * radix) :
    knuthDigit v jj u =
      (limbsVal ((u.drop jj).take (v.length + 1)) / limbsVal v,
        u.take jj ++ limbsOf (v.length + 1) (limbsVal ((u.drop jj).take (v.length + 1)) % limbsVal v)
          ++ u.drop (jj + v.length + 1)) := by
  obtain ⟨n, hvn⟩ : ∃ n, v.length = n + 2 := ⟨v.length - 2, by omega⟩
  rw [hvn] at hTop hu hw ⊢
  have hlen : ((u.drop jj).take (n + 2 + 1)).length = n + 3 := by simp; omega
  have hv := top_two_limbs v n hvn
  have hW := top_three_limbs ((u.drop jj).take (n + 2 + 1)) n hlen
  rw [getD_drop_take _ _ _ _ (by omega), getD_drop_take _ _ _ _ (by omega),
    getD_drop_take _ _ _ _ (by omega)] at hW
  have hv1 := take_val_lt v n (by omega)
  have hW1 := take_val_lt ((u.drop jj).take (n + 2 + 1)) n (by omega)
  have hTop0 : 0 < (v.getD (n + 1) 0).toNat := lt_of_lt_of_le (by norm_num [radix]) hTop
  have hp : 0 < radix ^ n := by positivity
  obtain ⟨t1, t2, -⟩ := trialDigit_spec
    ((u.getD (jj + (n + 2)) 0).toNat * radix + (u.getD (jj + (n + 1)) 0).toNat)
    (v.getD (n + 1) 0).toNat (v.getD n 0).toNat (u.getD (jj + n) 0).toNat (radix ^ n)
    (limbsVal ((u.drop jj).take (n + 2 + 1))) (limbsVal v) hp hTop (word_lt_radix _)
    (by omega) (by rw [Nat.add_mul]; omega) (by omega) (by rw [Nat.add_mul]; omega)
    (word_lt_radix _) hw
  have hd0 : 0 < limbsVal v := by
    rw [hv]
    have : 0 < ((v.getD (n + 1) 0).toNat * radix + (v.getD n 0).toNat) * radix ^ n := by positivity
    omega
  have hc := correctDigit_spec _ _ _ hd0 t1 t2
  rw [knuthDigit]
  simp only [hvn]
  have e1 : n + 2 - 1 = n + 1 := by omega
  have e2 : n + 2 - 2 = n := by omega
  have e3 : jj + (n + 2) - 1 = jj + (n + 1) := by omega
  have e4 : jj + (n + 2) - 2 = jj + n := by omega
  rw [e1, e2, e3, e4, hc]

/-- The quotient loop: while the part of the dividend above position `count` is less than the divisor,
it divides the dividend by the divisor. -/
theorem knuthLoop_spec (v : List Word) (hn : 2 ≤ v.length)
    (hTop : radix / 2 ≤ (v.getD (v.length - 1) 0).toNat) (count : Nat) (u : List Word)
    (hu : count + v.length ≤ u.length) (hlt : limbsVal (u.drop count) < limbsVal v) :
    limbsVal (knuthLoop v count u).1 = limbsVal u / limbsVal v ∧
      limbsVal ((knuthLoop v count u).2.take v.length) = limbsVal u % limbsVal v ∧
      (knuthLoop v count u).1.length = count := by
  have hd0 : 0 < limbsVal v := by omega
  induction count generalizing u with
  | zero =>
    rw [List.drop_zero] at hlt
    simp only [knuthLoop]
    rw [limbsVal_take _ _ (by omega), Nat.mod_eq_of_lt (lt_trans hlt (limbsVal_lt v)),
      Nat.div_eq_of_lt hlt, Nat.mod_eq_of_lt hlt]
    exact ⟨rfl, rfl, rfl⟩
  | succ jj ih =>
    -- the value from position jj up fits the window
    have hsplit : limbsVal (u.drop jj) = (u.getD jj 0).toNat + radix * limbsVal (u.drop (jj + 1)) := by
      rw [List.drop_eq_getElem_cons (show jj < u.length by omega), limbsVal_cons]
      simp [List.getElem?_eq_getElem (show jj < u.length by omega)]
    have hwlt : limbsVal (u.drop jj) < limbsVal v * radix := by
      have := word_lt_radix (u.getD jj 0)
      rw [hsplit]
      calc (u.getD jj 0).toNat + radix * limbsVal (u.drop (jj + 1))
          < radix + radix * limbsVal (u.drop (jj + 1)) := by omega
        _ = (limbsVal (u.drop (jj + 1)) + 1) * radix := by ring
        _ ≤ limbsVal v * radix := Nat.mul_le_mul_right _ hlt
    have hwp : limbsVal (u.drop jj) < radix ^ (v.length + 1) := by
      refine lt_of_lt_of_le hwlt ?_
      rw [pow_succ]; exact Nat.mul_le_mul_right _ (limbsVal_lt v).le
    have hdl : v.length + 1 ≤ (u.drop jj).length := by simp; omega
    have hwin : limbsVal ((u.drop jj).take (v.length + 1)) = limbsVal (u.drop jj) := by
      rw [limbsVal_take _ _ hdl, Nat.mod_eq_of_lt hwp]
    have hzero : limbsVal (u.drop (jj + v.length + 1)) = 0 := by
      have : u.drop (jj + v.length + 1) = (u.drop jj).drop (v.length + 1) := by
        rw [List.drop_drop]; rfl
      rw [this, limbsVal_drop _ _ hdl, Nat.div_eq_of_lt hwp]
    have hk := knuthDigit_spec v jj u hn hTop (by omega) (by rw [hwin]; exact hwlt)
    rw [hwin] at hk
    have hr : limbsVal (u.drop jj) % limbsVal v < limbsVal v := Nat.mod_lt _ hd0
    have hdm := Nat.div_add_mod (limbsVal (u.drop jj)) (limbsVal v)
    have hdig : limbsVal (u.drop jj) / limbsVal v < radix := Nat.div_lt_of_lt_mul hwlt
    generalize limbsVal (u.drop jj) / limbsVal v = digit at *
    generalize limbsVal (u.drop jj) % limbsVal v = r at *
    have hrp : r < radix ^ (v.length + 1) := by
      refine lt_trans (lt_trans hr (limbsVal_lt v)) ?_
      exact Nat.pow_lt_pow_right (by norm_num [radix]) (by omega)
    generalize hu' : u.take jj ++ limbsOf (v.length + 1) r ++ u.drop (jj + v.length + 1) = u' at hk
    have htl : (u.take jj).length = jj := by simp; omega
    have hu'len : u'.length = u.length := by
      rw [← hu']; simp; omega
    have hu'drop : limbsVal (u'.drop jj) = r := by
      rw [← hu', List.append_assoc, List.drop_append_of_le_length (by omega),
        List.drop_of_length_le (by omega), List.nil_append, limbsVal_append, hzero,
        limbsVal_limbsOf, Nat.mod_eq_of_lt hrp]
      simp
    have hu'take : u'.take jj = u.take jj := by
      rw [← hu', List.append_assoc, List.take_append_of_le_length (by omega), List.take_take, min_self]
    have hval : limbsVal u = limbsVal u' + radix ^ jj * digit * limbsVal v := by
      rw [limbsVal_take_drop jj u (by omega), limbsVal_take_drop jj u' (by omega), hu'take, hu'drop,
        ← hdm]
      ring
    obtain ⟨h1, h2, h3⟩ := ih u' (by omega) (by rw [hu'drop]; exact hr)
    simp only [knuthLoop, hk]
    refine ⟨?_, ?_, by simp [h3]⟩
    · rw [limbsVal_append, h1, h3, hval, Nat.add_mul_div_right _ _ hd0, limbsVal_cons, limbsVal_nil,
        ofNat_toNat_mod, Nat.mod_eq_of_lt hdig]
      ring
    · rw [h2, hval, Nat.add_mul_mod_self_right]

/-- Knuth's Algorithm D gives the floor quotient and the remainder (R485 to R489). -/
theorem knuthDiv_spec (a b : List Word) (hb : NoLeadingZero b) (hn : 2 ≤ b.length)
    (hab : b.length ≤ a.length) :
    knuthDiv a b = (limbsVal a / limbsVal b, limbsVal a % limbsVal b) := by
  have hne : b ≠ [] := by rintro rfl; simp at hn
  have htop : b.getD (b.length - 1) 0 = b.getLast hne := by
    simp [List.getLast_eq_getElem, List.getElem?_eq_getElem (show b.length - 1 < b.length by omega)]
  obtain ⟨c1, c2⟩ := clz32_scales (b.getD (b.length - 1) 0) (by rw [htop]; exact hb hne)
  generalize hs : clz32 (b.getD (b.length - 1) 0) = s at c1 c2
  have hs0 : 0 < 2 ^ s := by positivity
  -- the scaled divisor keeps its length
  have hbval : limbsVal b = limbsVal (b.take (b.length - 1))
      + radix ^ (b.length - 1) * (b.getD (b.length - 1) 0).toNat := by
    rw [limbsVal_take_drop (b.length - 1) b (by omega)]
    congr 2
    rw [limbsVal_drop _ _ (by omega), ← limbAt_limbsVal b, limbAt, ofNat_toNat_mod, Nat.mod_eq_of_lt]
    apply Nat.div_lt_of_lt_mul
    have := limbsVal_lt b
    rwa [show radix ^ (b.length - 1) * radix = radix ^ b.length by
      rw [← pow_succ]; congr 1; omega]
  have hlow := take_val_lt b (b.length - 1) (by omega)
  have hscaled : limbsVal b * 2 ^ s < radix ^ b.length := by
    calc limbsVal b * 2 ^ s
        < radix ^ (b.length - 1) * ((b.getD (b.length - 1) 0).toNat + 1) * 2 ^ s := by
          apply Nat.mul_lt_mul_of_pos_right _ hs0
          rw [Nat.mul_add]; omega
      _ = radix ^ (b.length - 1) * ((b.getD (b.length - 1) 0).toNat * 2 ^ s + 2 ^ s) := by ring
      _ ≤ radix ^ (b.length - 1) * radix := by
          apply Nat.mul_le_mul_left
          -- both terms are multiples of 2^s, and so is the radix
          have hs32 : s ≤ 31 := by rw [← hs, clz32]; omega
          have e : radix = 2 ^ (32 - s) * 2 ^ s := by rw [radix, ← pow_add]; congr 1; omega
          rw [e] at c2 ⊢
          have := Nat.lt_of_mul_lt_mul_right c2
          calc (b.getD (b.length - 1) 0).toNat * 2 ^ s + 2 ^ s
              = ((b.getD (b.length - 1) 0).toNat + 1) * 2 ^ s := by ring
            _ ≤ _ := Nat.mul_le_mul_right _ this
      _ = radix ^ b.length := by rw [← pow_succ]; congr 1; omega
  generalize hv : limbsOf b.length (limbsVal b * 2 ^ s) = v
  have hvlen : v.length = b.length := by rw [← hv, limbsOf_length]
  have hvval : limbsVal v = limbsVal b * 2 ^ s := by
    rw [← hv, limbsVal_limbsOf, Nat.mod_eq_of_lt hscaled]
  have hvtop : radix / 2 ≤ (v.getD (v.length - 1) 0).toNat := by
    rw [← limbAt_limbsVal v, limbAt, hvval, hvlen, ofNat_toNat_mod, Nat.mod_eq_of_lt]
    · refine le_trans c1 ((Nat.le_div_iff_mul_le (by positivity)).2 ?_)
      rw [hbval, Nat.add_mul]
      refine le_trans (le_of_eq ?_) (Nat.le_add_left _ _)
      ring
    · apply Nat.div_lt_of_lt_mul
      rwa [show radix ^ (b.length - 1) * radix = radix ^ b.length by
        rw [← pow_succ]; congr 1; omega]
  -- the scaled dividend fits la + 1 limbs
  have hsr : 2 ^ s ≤ radix := by
    have h1 : 1 ≤ (b.getD (b.length - 1) 0).toNat := by
      rcases Nat.eq_zero_or_pos (b.getD (b.length - 1) 0).toNat with h | h
      · rw [h] at c1; norm_num [radix] at c1
      · exact h
    exact le_trans (Nat.le_mul_of_pos_left _ h1) c2.le
  have hufit : limbsVal a * 2 ^ s < radix ^ (a.length + 1) := by
    rw [pow_succ]
    exact Nat.mul_lt_mul_of_lt_of_le (limbsVal_lt a) hsr (by norm_num [radix])
  generalize hu : limbsOf (a.length + 1) (limbsVal a * 2 ^ s) = u
  have hulen : u.length = a.length + 1 := by rw [← hu, limbsOf_length]
  have huval : limbsVal u = limbsVal a * 2 ^ s := by
    rw [← hu, limbsVal_limbsOf, Nat.mod_eq_of_lt hufit]
  have hvpos : radix ^ (b.length - 1) * 2 ^ s ≤ limbsVal v := by
    rw [hvval]
    apply Nat.mul_le_mul_right
    have := radix_pow_le_limbsVal b hne (hb hne)
    exact this
  obtain ⟨k1, k2, -⟩ := knuthLoop_spec v (by omega) hvtop (a.length - b.length + 1) u (by omega) (by
    rw [limbsVal_drop _ _ (by omega), huval]
    refine lt_of_lt_of_le (Nat.div_lt_of_lt_mul ?_) hvpos
    calc limbsVal a * 2 ^ s < radix ^ a.length * 2 ^ s := Nat.mul_lt_mul_of_pos_right (limbsVal_lt a) hs0
      _ = radix ^ (a.length - b.length + 1) * (radix ^ (b.length - 1) * 2 ^ s) := by
        rw [← Nat.mul_assoc, ← pow_add]; congr 2; omega)
  rw [hvlen] at k2
  simp only [knuthDiv, hs, hv, hu]
  rw [k1, k2, huval, hvval, Nat.mul_div_mul_right _ _ hs0, Nat.mul_mod_mul_right,
    Nat.mul_div_cancel _ hs0]

/-- Every case of the divider gives the floor quotient and the remainder (R481, R482). -/
theorem divider_spec (a b : List Word) (ha : NoLeadingZero a) (hb : NoLeadingZero b)
    (hb0 : b ≠ []) : divider a b = (limbsVal a / limbsVal b, limbsVal a % limbsVal b) := by
  rw [divider, compareLimbs_eq a b ha hb]
  by_cases hlt : limbsVal a < limbsVal b
  · rw [if_pos (Nat.compare_eq_lt.2 hlt), Nat.div_eq_of_lt hlt, Nat.mod_eq_of_lt hlt]
  · rw [if_neg (mt Nat.compare_eq_lt.1 hlt)]
    have hlen : b.length ≤ a.length := by
      rw [← ha.nlimbs_val, ← hb.nlimbs_val]; exact nlimbs_mono (by omega)
    by_cases h1 : b.length = 1
    · rw [if_pos h1]
      obtain ⟨d, rfl⟩ := List.length_eq_one_iff.1 h1
      have hd : 0 < d.toNat := by
        rcases Nat.eq_zero_or_pos d.toNat with h | h
        · exact absurd (BitVec.eq_of_toNat_eq (by simpa using h)) (hb (by simp))
        · exact h
      obtain ⟨s1, s2, -⟩ := shortDiv_spec d.toNat hd a
      simp only [List.getD_cons_zero, limbsVal_cons, limbsVal_nil, Nat.mul_zero, Nat.add_zero]
      refine Prod.ext ?_ ?_
      · simp only
        rw [s1, Nat.mul_add_div hd, Nat.div_eq_of_lt s2, Nat.add_zero]
      · simp only
        rw [s1, Nat.mul_add_mod, Nat.mod_eq_of_lt s2]
    · rw [if_neg h1]
      have : b.length ≠ 0 := by simpa using hb0
      exact knuthDiv_spec a b hb (by omega) hlen

end Sys2Proof.Machine
end

