-- ==== Sys2Proof/Laws/Multiply.lean ====
section
/-! SUPPORT. What the product array computes (43_multiply.md R461, R462): no carry leaves the array, and the
trimmed array is the product. -/

namespace Sys2Proof.Machine

theorem rippleCarry_spec (c : Nat) (ls : List Word) (h : c + limbsVal ls < radix ^ ls.length) :
    (rippleCarry c ls).length = ls.length ∧ limbsVal (rippleCarry c ls) = c + limbsVal ls := by
  induction ls generalizing c with
  | nil => simp at h; simp [rippleCarry, h]
  | cons l ls ih =>
    rw [rippleCarry]
    by_cases hc : c = 0
    · simp [hc]
    · rw [if_neg hc]
      have hm := Nat.mod_add_div (l.toNat + c) radix
      have hb : (l.toNat + c) / radix + limbsVal ls < radix ^ ls.length := by
        rw [List.length_cons, pow_succ, limbsVal_cons] at h
        have : radix * ((l.toNat + c) / radix + limbsVal ls) < radix * radix ^ ls.length := by
          rw [Nat.mul_add, mul_comm radix (radix ^ _)]; omega
        exact Nat.lt_of_mul_lt_mul_left this
      obtain ⟨h1, h2⟩ := ih _ hb
      refine ⟨by simp [h1], ?_⟩
      rw [limbsVal_cons, limbsVal_cons, ofNat_toNat_mod, h2, Nat.mul_add]
      omega

theorem addPartial_spec (t : Nat) (array : List Word) (hl : 2 ≤ array.length)
    (h : limbsVal array + t < radix ^ array.length) :
    (addPartial t array).length = array.length ∧
      limbsVal (addPartial t array) = limbsVal array + t := by
  obtain _ | ⟨lo, _ | ⟨hi, rest⟩⟩ := array
  · simp at hl
  · simp at hl
  · simp only [addPartial]
    have e0 := Nat.mod_add_div (lo.toNat + t % radix) radix
    have e1 := Nat.mod_add_div (hi.toNat + t / radix + (lo.toNat + t % radix) / radix) radix
    have e2 := Nat.mod_add_div t radix
    generalize hs0 : lo.toNat + t % radix = s0 at *
    generalize hs1 : hi.toNat + t / radix + s0 / radix = s1 at *
    have hsum : limbsVal (lo :: hi :: rest) + t
        = s0 % radix + radix * (s1 % radix) + radix * radix * (s1 / radix + limbsVal rest) := by
      have : radix * s1 = radix * (s1 % radix) + radix * radix * (s1 / radix) := by
        conv_lhs => rw [← e1]
        ring
      have h3 : radix * s1 = radix * hi.toNat + radix * (t / radix) + radix * (s0 / radix) := by
        rw [← hs1]; ring
      simp only [limbsVal_cons, Nat.mul_add, ← Nat.mul_assoc] at *
      omega
    have hb : s1 / radix + limbsVal rest < radix ^ rest.length := by
      have : radix * radix * (s1 / radix + limbsVal rest) < radix * radix * radix ^ rest.length := by
        have : radix ^ (lo :: hi :: rest).length = radix * radix * radix ^ rest.length := by
          rw [List.length_cons, List.length_cons, pow_add, pow_add]; ring
        omega
      exact Nat.lt_of_mul_lt_mul_left this
    obtain ⟨h1, h2⟩ := rippleCarry_spec _ _ hb
    refine ⟨by simp [h1], ?_⟩
    rw [hsum, limbsVal_cons, limbsVal_cons, ofNat_toNat_mod, ofNat_toNat_mod, h2]
    ring

theorem addPartialAt_spec (k t : Nat) (array : List Word) (hl : k + 2 ≤ array.length)
    (h : limbsVal array + t * radix ^ k < radix ^ array.length) :
    (addPartialAt k t array).length = array.length ∧
      limbsVal (addPartialAt k t array) = limbsVal array + t * radix ^ k := by
  have hv := limbsVal_take_drop k array (by omega)
  have hlen : (array.drop k).length = array.length - k := by simp
  have hb : limbsVal (array.drop k) + t < radix ^ (array.drop k).length := by
    rw [hlen]
    have hp : radix ^ array.length = radix ^ k * radix ^ (array.length - k) := by
      rw [← pow_add]; congr 1; omega
    have : radix ^ k * (limbsVal (array.drop k) + t) < radix ^ k * radix ^ (array.length - k) := by
      rw [← hp, Nat.mul_add, mul_comm (radix ^ k) t]; omega
    exact Nat.lt_of_mul_lt_mul_left this
  obtain ⟨h1, h2⟩ := addPartial_spec t (array.drop k) (by omega) hb
  rw [addPartialAt]
  refine ⟨by simp only [List.length_append, List.length_take, h1]; omega, ?_⟩
  rw [limbsVal_append, h2, List.length_take, min_eq_left (by omega), Nat.mul_add, hv]
  ring

theorem productRow_spec (x : Word) (k : Nat) (ys array : List Word)
    (hl : k + ys.length + 1 ≤ array.length)
    (h : limbsVal array + x.toNat * limbsVal ys * radix ^ k < radix ^ array.length) :
    (productRow x k ys array).length = array.length ∧
      limbsVal (productRow x k ys array) = limbsVal array + x.toNat * limbsVal ys * radix ^ k := by
  induction ys generalizing k array with
  | nil => simp [productRow]
  | cons y ys ih =>
    have e : x.toNat * limbsVal (y :: ys) * radix ^ k
        = x.toNat * y.toNat * radix ^ k + x.toNat * limbsVal ys * radix ^ (k + 1) := by
      rw [limbsVal_cons, pow_succ]; ring
    rw [e] at h ⊢
    simp only [List.length_cons] at hl
    obtain ⟨h1, h2⟩ := addPartialAt_spec k (x.toNat * y.toNat) array (by omega) (by omega)
    obtain ⟨h3, h4⟩ := ih (k + 1) (addPartialAt k (x.toNat * y.toNat) array) (by omega)
      (by rw [h1, h2]; omega)
    rw [productRow]
    exact ⟨by rw [h3, h1], by rw [h4, h2]; omega⟩

theorem productRows_spec (b : List Word) (k : Nat) (xs array : List Word)
    (hl : k + xs.length + b.length ≤ array.length)
    (h : limbsVal array + limbsVal xs * limbsVal b * radix ^ k < radix ^ array.length) :
    (productRows b k xs array).length = array.length ∧
      limbsVal (productRows b k xs array) = limbsVal array + limbsVal xs * limbsVal b * radix ^ k := by
  induction xs generalizing k array with
  | nil => simp [productRows]
  | cons x xs ih =>
    have e : limbsVal (x :: xs) * limbsVal b * radix ^ k
        = x.toNat * limbsVal b * radix ^ k + limbsVal xs * limbsVal b * radix ^ (k + 1) := by
      rw [limbsVal_cons, pow_succ]; ring
    rw [e] at h ⊢
    simp only [List.length_cons] at hl
    obtain ⟨h1, h2⟩ := productRow_spec x k b array (by omega) (by omega)
    obtain ⟨h3, h4⟩ := ih (k + 1) (productRow x k b array) (by omega) (by rw [h1, h2]; omega)
    rw [productRows]
    exact ⟨by rw [h3, h1], by rw [h4, h2]; omega⟩

/-- The product array gives the product of the represented values (R461). -/
theorem productArray_val (a b : List Word) :
    limbsVal (productArray a b) = limbsVal a * limbsVal b := by
  have hb : limbsVal (List.replicate (a.length + b.length) (0 : Word))
      + limbsVal a * limbsVal b * radix ^ 0
      < radix ^ (List.replicate (a.length + b.length) (0 : Word)).length := by
    rw [limbsVal_replicate_zero, List.length_replicate, pow_add, pow_zero, zero_add, mul_one]
    exact Nat.mul_lt_mul'' (limbsVal_lt a) (limbsVal_lt b)
  obtain ⟨-, h⟩ := productRows_spec b 0 a (List.replicate (a.length + b.length) 0) (by simp) hb
  rw [productArray, limbsVal_trimLimbs, h, limbsVal_replicate_zero]
  simp

/-- The array is trimmed to the length the product needs (R462). -/
theorem productArray_length (a b : List Word) :
    (productArray a b).length = nlimbs (limbsVal a * limbsVal b) := by
  rw [← productArray_val, productArray, trimLimbs_length, limbsVal_trimLimbs]

end Sys2Proof.Machine
end

