-- ==== Sys2Proof/Laws/State.lean ====
section
/-! SUPPORT. The fields of an updated state, one lemma per field per update, and the registers of an updated
state. -/

namespace Sys2Proof.Machine

/-! ### Fields -/

@[simp] theorem setReg_maxLimbs (s : State) (i : RegIx) (r : BigReg) : (s.setReg i r).maxLimbs = s.maxLimbs := rfl
@[simp] theorem setReg_regs (s : State) (i : RegIx) (r : BigReg) : (s.setReg i r).regs = s.regs.set i.val r i.isLt := rfl
@[simp] theorem setReg_flags (s : State) (i : RegIx) (r : BigReg) : (s.setReg i r).flags = s.flags := rfl
@[simp] theorem setReg_data (s : State) (i : RegIx) (r : BigReg) : (s.setReg i r).data = s.data := rfl
@[simp] theorem setReg_err (s : State) (i : RegIx) (r : BigReg) : (s.setReg i r).err = s.err := rfl
@[simp] theorem setReg_ovr (s : State) (i : RegIx) (r : BigReg) : (s.setReg i r).ovr = s.ovr := rfl
@[simp] theorem setReg_rej (s : State) (i : RegIx) (r : BigReg) : (s.setReg i r).rej = s.rej := rfl
@[simp] theorem setReg_pend (s : State) (i : RegIx) (r : BigReg) : (s.setReg i r).pend = s.pend := rfl
@[simp] theorem setReg_wait (s : State) (i : RegIx) (r : BigReg) : (s.setReg i r).wait = s.wait := rfl
@[simp] theorem setReg_host (s : State) (i : RegIx) (r : BigReg) : (s.setReg i r).host = s.host := rfl
@[simp] theorem setReg_bus (s : State) (i : RegIx) (r : BigReg) : (s.setReg i r).bus = s.bus := rfl
@[simp] theorem setReg_draws (s : State) (i : RegIx) (r : BigReg) : (s.setReg i r).draws = s.draws := rfl

@[simp] theorem writeReg_maxLimbs (s : State) (d : RegIx) (v : Nat) : (s.writeReg d v).maxLimbs = s.maxLimbs := rfl
@[simp] theorem writeReg_flags (s : State) (d : RegIx) (v : Nat) : (s.writeReg d v).flags = s.flags := rfl
@[simp] theorem writeReg_data (s : State) (d : RegIx) (v : Nat) : (s.writeReg d v).data = s.data := rfl
@[simp] theorem writeReg_err (s : State) (d : RegIx) (v : Nat) : (s.writeReg d v).err = s.err := rfl
@[simp] theorem writeReg_ovr (s : State) (d : RegIx) (v : Nat) : (s.writeReg d v).ovr = s.ovr := rfl
@[simp] theorem writeReg_rej (s : State) (d : RegIx) (v : Nat) : (s.writeReg d v).rej = s.rej := rfl
@[simp] theorem writeReg_pend (s : State) (d : RegIx) (v : Nat) : (s.writeReg d v).pend = s.pend := rfl
@[simp] theorem writeReg_wait (s : State) (d : RegIx) (v : Nat) : (s.writeReg d v).wait = s.wait := rfl
@[simp] theorem writeReg_host (s : State) (d : RegIx) (v : Nat) : (s.writeReg d v).host = s.host := rfl
@[simp] theorem writeReg_bus (s : State) (d : RegIx) (v : Nat) : (s.writeReg d v).bus = s.bus := rfl
@[simp] theorem writeReg_draws (s : State) (d : RegIx) (v : Nat) : (s.writeReg d v).draws = s.draws := rfl

@[simp] theorem writeLimb_maxLimbs (s : State) (i : RegIx) (k : Nat) (v : Word) : (s.writeLimb i k v).maxLimbs = s.maxLimbs := rfl
@[simp] theorem writeLimb_flags (s : State) (i : RegIx) (k : Nat) (v : Word) : (s.writeLimb i k v).flags = s.flags := rfl
@[simp] theorem writeLimb_data (s : State) (i : RegIx) (k : Nat) (v : Word) : (s.writeLimb i k v).data = s.data := rfl
@[simp] theorem writeLimb_err (s : State) (i : RegIx) (k : Nat) (v : Word) : (s.writeLimb i k v).err = s.err := rfl
@[simp] theorem writeLimb_ovr (s : State) (i : RegIx) (k : Nat) (v : Word) : (s.writeLimb i k v).ovr = s.ovr := rfl
@[simp] theorem writeLimb_rej (s : State) (i : RegIx) (k : Nat) (v : Word) : (s.writeLimb i k v).rej = s.rej := rfl
@[simp] theorem writeLimb_pend (s : State) (i : RegIx) (k : Nat) (v : Word) : (s.writeLimb i k v).pend = s.pend := rfl
@[simp] theorem writeLimb_wait (s : State) (i : RegIx) (k : Nat) (v : Word) : (s.writeLimb i k v).wait = s.wait := rfl
@[simp] theorem writeLimb_host (s : State) (i : RegIx) (k : Nat) (v : Word) : (s.writeLimb i k v).host = s.host := rfl
@[simp] theorem writeLimb_bus (s : State) (i : RegIx) (k : Nat) (v : Word) : (s.writeLimb i k v).bus = s.bus := rfl
@[simp] theorem writeLimb_draws (s : State) (i : RegIx) (k : Nat) (v : Word) : (s.writeLimb i k v).draws = s.draws := rfl

@[simp] theorem clearErrors_maxLimbs (s : State) : (clearErrors s).maxLimbs = s.maxLimbs := rfl
@[simp] theorem clearErrors_regs (s : State) : (clearErrors s).regs = s.regs := rfl
@[simp] theorem clearErrors_flags (s : State) : (clearErrors s).flags = s.flags := rfl
@[simp] theorem clearErrors_data (s : State) : (clearErrors s).data = s.data := rfl
@[simp] theorem clearErrors_err (s : State) : (clearErrors s).err = none := rfl
@[simp] theorem clearErrors_ovr (s : State) : (clearErrors s).ovr = false := rfl
@[simp] theorem clearErrors_rej (s : State) : (clearErrors s).rej = false := rfl
@[simp] theorem clearErrors_pend (s : State) : (clearErrors s).pend = s.pend := rfl
@[simp] theorem clearErrors_wait (s : State) : (clearErrors s).wait = s.wait := rfl
@[simp] theorem clearErrors_host (s : State) : (clearErrors s).host = s.host := rfl
@[simp] theorem clearErrors_bus (s : State) : (clearErrors s).bus = s.bus := rfl
@[simp] theorem clearErrors_draws (s : State) : (clearErrors s).draws = s.draws := rfl

@[simp] theorem overrun_maxLimbs (s : State) : (overrun s).maxLimbs = s.maxLimbs := rfl
@[simp] theorem overrun_regs (s : State) : (overrun s).regs = s.regs := rfl
@[simp] theorem overrun_flags (s : State) : (overrun s).flags = s.flags := rfl
@[simp] theorem overrun_data (s : State) : (overrun s).data = s.data := rfl
@[simp] theorem overrun_err (s : State) : (overrun s).err = s.err := rfl
@[simp] theorem overrun_ovr (s : State) : (overrun s).ovr = true := rfl
@[simp] theorem overrun_rej (s : State) : (overrun s).rej = s.rej := rfl
@[simp] theorem overrun_pend (s : State) : (overrun s).pend = s.pend := rfl
@[simp] theorem overrun_wait (s : State) : (overrun s).wait = s.wait := rfl
@[simp] theorem overrun_host (s : State) : (overrun s).host = s.host := rfl
@[simp] theorem overrun_bus (s : State) : (overrun s).bus = s.bus := rfl
@[simp] theorem overrun_draws (s : State) : (overrun s).draws = s.draws := rfl

@[simp] theorem reject_maxLimbs (s : State) : (reject s).maxLimbs = s.maxLimbs := rfl
@[simp] theorem reject_regs (s : State) : (reject s).regs = s.regs := rfl
@[simp] theorem reject_flags (s : State) : (reject s).flags = s.flags := rfl
@[simp] theorem reject_data (s : State) : (reject s).data = s.data := rfl
@[simp] theorem reject_err (s : State) : (reject s).err = s.err := rfl
@[simp] theorem reject_ovr (s : State) : (reject s).ovr = s.ovr := rfl
@[simp] theorem reject_rej (s : State) : (reject s).rej = true := rfl
@[simp] theorem reject_pend (s : State) : (reject s).pend = s.pend := rfl
@[simp] theorem reject_wait (s : State) : (reject s).wait = s.wait := rfl
@[simp] theorem reject_host (s : State) : (reject s).host = s.host := rfl
@[simp] theorem reject_bus (s : State) : (reject s).bus = s.bus := rfl
@[simp] theorem reject_draws (s : State) : (reject s).draws = s.draws := rfl

@[simp] theorem accept_maxLimbs (w : Word) (s : State) : (accept w s).maxLimbs = s.maxLimbs := rfl
@[simp] theorem accept_regs (w : Word) (s : State) : (accept w s).regs = s.regs := rfl
@[simp] theorem accept_flags (w : Word) (s : State) : (accept w s).flags = s.flags := rfl
@[simp] theorem accept_data (w : Word) (s : State) : (accept w s).data = s.data := rfl
@[simp] theorem accept_err (w : Word) (s : State) : (accept w s).err = s.err := rfl
@[simp] theorem accept_ovr (w : Word) (s : State) : (accept w s).ovr = s.ovr := rfl
@[simp] theorem accept_rej (w : Word) (s : State) : (accept w s).rej = s.rej := rfl
@[simp] theorem accept_pend (w : Word) (s : State) : (accept w s).pend = some w := rfl
@[simp] theorem accept_wait (w : Word) (s : State) : (accept w s).wait = Config.latency s.draws := rfl
@[simp] theorem accept_host (w : Word) (s : State) : (accept w s).host = s.host := rfl
@[simp] theorem accept_bus (w : Word) (s : State) : (accept w s).bus = s.bus := rfl
@[simp] theorem accept_draws (w : Word) (s : State) : (accept w s).draws = s.draws + 1 := rfl

@[simp] theorem finish_maxLimbs (s : State) : (finish s).maxLimbs = s.maxLimbs := rfl
@[simp] theorem finish_regs (s : State) : (finish s).regs = s.regs := rfl
@[simp] theorem finish_flags (s : State) : (finish s).flags = s.flags := rfl
@[simp] theorem finish_data (s : State) : (finish s).data = s.data := rfl
@[simp] theorem finish_err (s : State) : (finish s).err = s.err := rfl
@[simp] theorem finish_ovr (s : State) : (finish s).ovr = s.ovr := rfl
@[simp] theorem finish_rej (s : State) : (finish s).rej = s.rej := rfl
@[simp] theorem finish_pend (s : State) : (finish s).pend = none := rfl
@[simp] theorem finish_wait (s : State) : (finish s).wait = 0 := rfl
@[simp] theorem finish_host (s : State) : (finish s).host = s.host := rfl
@[simp] theorem finish_bus (s : State) : (finish s).bus = s.bus := rfl
@[simp] theorem finish_draws (s : State) : (finish s).draws = s.draws := rfl

@[simp] theorem resetBlock_maxLimbs (s : State) : (resetBlock s).maxLimbs = s.maxLimbs := rfl
@[simp] theorem resetBlock_regs (s : State) : (resetBlock s).regs = Vector.replicate 16 (BigReg.zero s.maxLimbs) := rfl
@[simp] theorem resetBlock_flags (s : State) : (resetBlock s).flags = Flags.zero := rfl
@[simp] theorem resetBlock_data (s : State) : (resetBlock s).data = 0 := rfl
@[simp] theorem resetBlock_err (s : State) : (resetBlock s).err = none := rfl
@[simp] theorem resetBlock_ovr (s : State) : (resetBlock s).ovr = false := rfl
@[simp] theorem resetBlock_rej (s : State) : (resetBlock s).rej = false := rfl
@[simp] theorem resetBlock_pend (s : State) : (resetBlock s).pend = none := rfl
@[simp] theorem resetBlock_wait (s : State) : (resetBlock s).wait = 0 := rfl
@[simp] theorem resetBlock_host (s : State) : (resetBlock s).host = s.host := rfl
@[simp] theorem resetBlock_bus (s : State) : (resetBlock s).bus = none := rfl
@[simp] theorem resetBlock_draws (s : State) : (resetBlock s).draws = s.draws := rfl

@[simp] theorem taken_maxLimbs (s : State) (rest : List HostEvent) : (s.taken rest).maxLimbs = s.maxLimbs := rfl
@[simp] theorem taken_regs (s : State) (rest : List HostEvent) : (s.taken rest).regs = s.regs := rfl
@[simp] theorem taken_flags (s : State) (rest : List HostEvent) : (s.taken rest).flags = s.flags := rfl
@[simp] theorem taken_data (s : State) (rest : List HostEvent) : (s.taken rest).data = s.data := rfl
@[simp] theorem taken_err (s : State) (rest : List HostEvent) : (s.taken rest).err = s.err := rfl
@[simp] theorem taken_ovr (s : State) (rest : List HostEvent) : (s.taken rest).ovr = s.ovr := rfl
@[simp] theorem taken_rej (s : State) (rest : List HostEvent) : (s.taken rest).rej = s.rej := rfl
@[simp] theorem taken_pend (s : State) (rest : List HostEvent) : (s.taken rest).pend = s.pend := rfl
@[simp] theorem taken_wait (s : State) (rest : List HostEvent) : (s.taken rest).wait = s.wait - 1 := rfl
@[simp] theorem taken_host (s : State) (rest : List HostEvent) : (s.taken rest).host = rest := rfl
@[simp] theorem taken_bus (s : State) (rest : List HostEvent) : (s.taken rest).bus = s.bus := rfl
@[simp] theorem taken_draws (s : State) (rest : List HostEvent) : (s.taken rest).draws = s.draws := rfl

@[simp] theorem resetWith_maxLimbs (m : Nat) : (State.resetWith m).maxLimbs = m := rfl
@[simp] theorem resetWith_regs (m : Nat) : (State.resetWith m).regs = Vector.replicate 16 (BigReg.zero m) := rfl
@[simp] theorem resetWith_flags (m : Nat) : (State.resetWith m).flags = Flags.zero := rfl
@[simp] theorem resetWith_data (m : Nat) : (State.resetWith m).data = 0 := rfl
@[simp] theorem resetWith_err (m : Nat) : (State.resetWith m).err = none := rfl
@[simp] theorem resetWith_ovr (m : Nat) : (State.resetWith m).ovr = false := rfl
@[simp] theorem resetWith_rej (m : Nat) : (State.resetWith m).rej = false := rfl
@[simp] theorem resetWith_pend (m : Nat) : (State.resetWith m).pend = none := rfl
@[simp] theorem resetWith_wait (m : Nat) : (State.resetWith m).wait = 0 := rfl
@[simp] theorem resetWith_host (m : Nat) : (State.resetWith m).host = [] := rfl
@[simp] theorem resetWith_bus (m : Nat) : (State.resetWith m).bus = none := rfl
@[simp] theorem resetWith_draws (m : Nat) : (State.resetWith m).draws = 0 := rfl

/-! ### Registers -/

theorem State.reg_eq (s : State) (i : RegIx) : s.reg i = s.regs[i.val]'i.isLt := rfl

@[simp] theorem reg_setReg_self (s : State) (i : RegIx) (r : BigReg) : (s.setReg i r).reg i = r := by
  simp [State.reg_eq]

theorem reg_setReg_ne (s : State) (i j : RegIx) (r : BigReg) (h : j ≠ i) :
    (s.setReg i r).reg j = s.reg j := by
  simp only [State.reg_eq, setReg_regs]
  rw [Vector.getElem_set_ne]
  exact fun e => h (Fin.ext e.symm)

theorem reg_setReg (s : State) (i j : RegIx) (r : BigReg) :
    (s.setReg i r).reg j = if j = i then r else s.reg j := by
  by_cases h : j = i
  · rw [if_pos h, h, reg_setReg_self]
  · rw [if_neg h, reg_setReg_ne s i j r h]

@[simp] theorem reg_writeReg_self (s : State) (d : RegIx) (v : Nat) :
    (s.writeReg d v).reg d = BigReg.ofNat s.maxLimbs v := reg_setReg_self _ _ _

theorem reg_writeReg_ne (s : State) (d j : RegIx) (v : Nat) (h : j ≠ d) :
    (s.writeReg d v).reg j = s.reg j := reg_setReg_ne _ _ _ _ h

theorem reg_writeReg (s : State) (d j : RegIx) (v : Nat) :
    (s.writeReg d v).reg j = if j = d then BigReg.ofNat s.maxLimbs v else s.reg j :=
  reg_setReg _ _ _ _

theorem reg_writeLimb (s : State) (i j : RegIx) (k : Nat) (v : Word) :
    (s.writeLimb i k v).reg j
      = if j = i then { s.reg i with limbs := (s.reg i).limbs.set k v, dirty := true } else s.reg j :=
  reg_setReg _ _ _ _

/-- Registers read through a state depend on its `regs` alone. -/
theorem reg_congr {s t : State} (h : t.regs = s.regs) (i : RegIx) : t.reg i = s.reg i := by
  rw [State.reg_eq, State.reg_eq]; simp only [h]

@[simp] theorem reg_resetWith (m : Nat) (i : RegIx) : (State.resetWith m).reg i = BigReg.zero m := by
  simp [State.reg_eq]

@[simp] theorem reg_resetBlock (s : State) (i : RegIx) :
    (resetBlock s).reg i = BigReg.zero s.maxLimbs := by
  simp [State.reg_eq]

/-- Two states with the same registers have the same register vector. -/
theorem regs_ext {s t : State} (h : ∀ i, t.reg i = s.reg i) : t.regs = s.regs := by
  apply Vector.ext
  intro k hk
  exact h ⟨k, hk⟩

end Sys2Proof.Machine
end

