-- ==== Sys2Proof/Laws/Registers.lean ====
section
/-! SUPPORT. What a clean register holds, what a normalised write and SETLEN leave, and that each keeps the
register invariant (10_state.md R101 to R106, 40_representation.md R408, R409). -/

namespace Sys2Proof.Machine

theorem productArray_noLeadingZero (a b : List Word) : NoLeadingZero (productArray a b) :=
  trimLimbs_getLast _

/-! ### Reading a register -/

theorem BigReg.Ok.live_length {m : Nat} {r : BigReg} (h : r.Ok m) : r.live.length = r.len := by
  rw [BigReg.live, List.length_take, h.limbs_length, min_eq_left h.len_le]

/-- The live limbs of a clean register have no leading zero (R102). -/
theorem BigReg.Ok.noLeadingZero {m : Nat} {r : BigReg} (h : r.Ok m) (hc : r.dirty = false) :
    NoLeadingZero r.live := by
  intro hne
  have hl := h.live_length
  have hpos : r.len ≠ 0 := by
    intro h0
    exact hne (List.length_eq_zero_iff.1 (by rw [hl, h0]))
  have hlt : r.len - 1 < r.limbs.length := by rw [h.limbs_length]; have := h.len_le; omega
  rcases (h.normalised hc).top with h0 | h0
  · exact absurd h0 hpos
  · rw [List.getLast_eq_getElem]
    simp only [hl]
    intro hz
    apply h0
    rw [BigReg.limb, List.getD_eq_getElem?_getD, List.getElem?_eq_getElem hlt]
    simpa [BigReg.live] using hz

/-- LEN is the length the value needs (R102). -/
theorem BigReg.Ok.nlimbs_val {m : Nat} {r : BigReg} (h : r.Ok m) (hc : r.dirty = false) :
    nlimbs r.val = r.len := by
  rw [BigReg.val, (h.noLeadingZero hc).nlimbs_val, h.live_length]

theorem BigReg.Ok.val_eq_zero_iff {m : Nat} {r : BigReg} (h : r.Ok m) (hc : r.dirty = false) :
    r.val = 0 ↔ r.len = 0 := by
  rw [← nlimbs_eq_zero, h.nlimbs_val hc]

/-- A clean register's limbs are those of its value, all the way up (R102, R212). -/
theorem BigReg.Ok.limb_eq {m : Nat} {r : BigReg} (h : r.Ok m) (hc : r.dirty = false) (k : Nat)
    (hk : k < m) : r.limb k = limbAt k r.val := by
  rw [BigReg.val, limbAt_limbsVal, BigReg.live]
  by_cases hlt : k < r.len
  · simp [BigReg.limb, hlt]
  · rw [(h.normalised hc).tail k (by omega) hk]
    simp [hlt]

/-- The value as the weighted sum of the limbs that count (R101). -/
theorem limbsVal_eq_sum (ls : List Word) :
    limbsVal ls = ∑ k ∈ Finset.range ls.length, (ls.getD k 0).toNat * radix ^ k := by
  induction ls with
  | nil => simp
  | cons l ls ih =>
    rw [limbsVal_cons, ih, List.length_cons, Finset.sum_range_succ', Finset.mul_sum]
    simp only [List.getD_cons_zero, pow_zero, mul_one, List.getD_cons_succ]
    rw [add_comm]
    congr 1
    apply Finset.sum_congr rfl
    intro k _
    rw [pow_succ]; ring

theorem limbsVal_take_eq_sum (ls : List Word) (n : Nat) (h : n ≤ ls.length) :
    limbsVal (ls.take n) = ∑ k ∈ Finset.range n, (ls.getD k 0).toNat * radix ^ k := by
  rw [limbsVal_eq_sum, List.length_take, min_eq_left h]
  apply Finset.sum_congr rfl
  intro k hk
  rw [Finset.mem_range] at hk
  simp [hk]

/-! ### The normalised write (R104) -/

theorem BigReg.ofNat_val (m v : Nat) (h : nlimbs v ≤ m) : (BigReg.ofNat m v).val = v := by
  simp only [BigReg.val, BigReg.live, BigReg.ofNat]
  rw [limbsOf_take _ _ _ h, limbsVal_limbsOf, Nat.mod_eq_of_lt (lt_radix_pow_nlimbs v)]

theorem BigReg.ofNat_limb (m v k : Nat) (h : k < m) : (BigReg.ofNat m v).limb k = limbAt k v :=
  limbsOf_getD m v k h

theorem BigReg.ofNat_ok (m v : Nat) (h : nlimbs v ≤ m) : (BigReg.ofNat m v).Ok m where
  len_le := h
  limbs_length := limbsOf_length m v
  normalised _ :=
    { top := by
        by_cases h0 : v = 0
        · left; simp [BigReg.ofNat, h0]
        · right
          have : nlimbs v ≠ 0 := by rwa [ne_eq, nlimbs_eq_zero]
          rw [BigReg.ofNat_limb _ _ _ (by simp only [BigReg.ofNat]; omega)]
          exact limbAt_top_ne_zero v h0
      tail := fun k hk hm => by
        rw [BigReg.ofNat_limb _ _ _ hm]
        exact limbAt_eq_zero k v hk }

theorem BigReg.zero_ok (m : Nat) : (BigReg.zero m).Ok m where
  len_le := Nat.zero_le _
  limbs_length := by simp [BigReg.zero]
  normalised _ :=
    { top := Or.inl rfl
      tail := fun k _ hk => by simp [BigReg.zero, BigReg.limb, hk] }

/-- A register that is as a normalised write of `v` leaves it. -/
theorem State.holds_of_reg {s : State} {i : RegIx} {v : Nat} (h : s.reg i = BigReg.ofNat s.maxLimbs v)
    (hv : nlimbs v ≤ s.maxLimbs) : s.Holds i v where
  len_eq := by rw [State.len, h]; rfl
  limb_eq k hk := by rw [h, BigReg.ofNat_limb _ _ _ hk]
  clean := by rw [State.dirty, h]; rfl
  val_eq := by rw [State.val, h, BigReg.ofNat_val _ _ hv]

theorem writeReg_holds (s : State) (d : RegIx) (v : Nat) (hv : nlimbs v ≤ s.maxLimbs) :
    (s.writeReg d v).Holds d v := State.holds_of_reg (by simp) hv

theorem writeReg_sameExcept (s : State) (d : RegIx) (v : Nat) : SameExcept [d] s (s.writeReg d v) where
  regs i hi := reg_writeReg_ne s d i v (by simpa using hi)
  maxLimbs := rfl
  flags := rfl
  data := rfl
  err := rfl
  ovr := rfl
  rej := rfl
  pend := rfl
  wait := rfl
  host := rfl
  bus := rfl
  draws := rfl

theorem SameExcept.trans {ds es : List RegIx} {s t u : State} (h : SameExcept ds s t)
    (k : SameExcept es t u) : SameExcept (ds ++ es) s u where
  regs i hi := by
    rw [List.mem_append, not_or] at hi
    rw [k.regs i hi.2, h.regs i hi.1]
  maxLimbs := k.maxLimbs.trans h.maxLimbs
  flags := k.flags.trans h.flags
  data := k.data.trans h.data
  err := k.err.trans h.err
  ovr := k.ovr.trans h.ovr
  rej := k.rej.trans h.rej
  pend := k.pend.trans h.pend
  wait := k.wait.trans h.wait
  host := k.host.trans h.host
  bus := k.bus.trans h.bus
  draws := k.draws.trans h.draws

/-! ### SETLEN (R408, R409) -/

theorem BigReg.normalise_val (m n : Nat) (r : BigReg) (hl : r.limbs.length = m) (hn : n ≤ m) :
    (r.normalise m n).val = limbsVal (r.limbs.take n) := by
  have hlen : (trimLimbs (r.limbs.take n)).length ≤ n := by
    rw [trimLimbs_length]
    refine le_trans (nlimbs_limbsVal_le _) ?_
    simp
  have ht : (r.limbs.take n).length = n := by simp; omega
  rw [BigReg.val, BigReg.live, BigReg.normalise]
  simp only
  rw [List.take_append_of_le_length (by omega), limbsVal_take _ _ (by omega), Nat.mod_eq_of_lt]
  rw [trimLimbs_length]
  exact lt_radix_pow_nlimbs _

/-- SETLEN leaves what a normalised write of the limbs below n would leave. -/
theorem BigReg.normalise_eq (m n : Nat) (r : BigReg) (hl : r.limbs.length = m) (hn : n ≤ m) :
    r.normalise m n = BigReg.ofNat m (limbsVal (r.limbs.take n)) := by
  have ht : (r.limbs.take n).length = n := by simp; omega
  rw [BigReg.normalise, BigReg.ofNat, trimLimbs_length]
  congr 1
  apply limbs_eq_of_limbsVal
  · rw [List.length_append, List.length_replicate, limbsOf_length]; omega
  · rw [limbsVal_append, limbsVal_replicate_zero, limbsVal_limbsOf, Nat.mod_eq_of_lt]
    · simp
    · refine lt_of_lt_of_le (limbsVal_lt _) ?_
      rw [ht]; exact Nat.pow_le_pow_right (by norm_num [radix]) hn

theorem BigReg.nlimbs_take_le (n : Nat) (r : BigReg) : nlimbs (limbsVal (r.limbs.take n)) ≤ n :=
  le_trans (nlimbs_limbsVal_le _) (by simp)

/-! ### The register invariant is kept -/

theorem State.Inv.writeReg {s : State} (h : s.Inv) (d : RegIx) (v : Nat) (hv : nlimbs v ≤ s.maxLimbs) :
    (s.writeReg d v).Inv where
  cap_range := h.cap_range
  regs_ok i := by
    rw [reg_writeReg]
    split
    · exact BigReg.ofNat_ok _ _ hv
    · exact h.regs_ok i
  flags_legal := h.flags_legal
  pending := h.pending
  rejected := h.rejected
  idle_wait := h.idle_wait

theorem BigReg.Ok.writeLimb {m : Nat} {r : BigReg} (h : r.Ok m) (k : Nat) (v : Word) :
    ({ r with limbs := r.limbs.set k v, dirty := true } : BigReg).Ok m where
  len_le := h.len_le
  limbs_length := by simp [h.limbs_length]
  normalised hc := by simp at hc

theorem State.Inv.writeLimb {s : State} (h : s.Inv) (i : RegIx) (k : Nat) (v : Word) :
    (s.writeLimb i k v).Inv where
  cap_range := h.cap_range
  regs_ok j := by
    rw [reg_writeLimb]
    split
    · exact (h.regs_ok i).writeLimb k v
    · exact h.regs_ok j
  flags_legal := h.flags_legal
  pending := h.pending
  rejected := h.rejected
  idle_wait := h.idle_wait

/-! ### Source operands -/

theorem State.anyDirty_eq_false (s : State) (is : List RegIx) :
    s.anyDirty is = false ↔ ∀ i ∈ is, s.dirty i = false := by
  simp [State.anyDirty]

theorem State.anyDirty_eq_true (s : State) (is : List RegIx) :
    s.anyDirty is = true ↔ ∃ i ∈ is, s.dirty i = true := by
  simp [State.anyDirty]

theorem State.Inv.live_noLeadingZero {s : State} (h : s.Inv) {i : RegIx} (hc : s.dirty i = false) :
    NoLeadingZero (s.live i) := (h.regs_ok i).noLeadingZero hc

theorem State.Inv.nlimbs_val_le {s : State} (h : s.Inv) {i : RegIx} (hc : s.dirty i = false) :
    nlimbs (s.val i) ≤ s.maxLimbs := by
  rw [State.val, (h.regs_ok i).nlimbs_val hc]; exact (h.regs_ok i).len_le

theorem State.Inv.len_eq_zero_iff {s : State} (h : s.Inv) {i : RegIx} (hc : s.dirty i = false) :
    s.len i = 0 ↔ s.val i = 0 := ((h.regs_ok i).val_eq_zero_iff hc).symm

theorem State.Inv.live_ne_nil {s : State} (h : s.Inv) {i : RegIx} (hl : s.len i ≠ 0) : s.live i ≠ [] := by
  intro e
  have := (h.regs_ok i).live_length
  rw [State.live] at e
  rw [e] at this
  exact hl this.symm

/-- The comparator on two clean registers (41_comparator.md R422). -/
theorem State.Inv.compare_eq {s : State} (h : s.Inv) {i j : RegIx} (hi : s.dirty i = false)
    (hj : s.dirty j = false) :
    compareLimbs (s.live i) (s.live j) = compare (s.val i) (s.val j) :=
  compareLimbs_eq _ _ (h.live_noLeadingZero hi) (h.live_noLeadingZero hj)

/-- The divider on two clean registers, the divisor not zero (44_divide.md R481). -/
theorem State.Inv.divider_eq {s : State} (h : s.Inv) {i j : RegIx} (hi : s.dirty i = false)
    (hj : s.dirty j = false) (h0 : s.len j ≠ 0) :
    divider (s.live i) (s.live j) = (s.val i / s.val j, s.val i % s.val j) :=
  divider_spec _ _ (h.live_noLeadingZero hi) (h.live_noLeadingZero hj) (h.live_ne_nil h0)

end Sys2Proof.Machine
end

