-- ==== Sys2Proof/Laws/Step.lean ====
section
/-! SUPPORT. What each shared operation of the step can do: a command, a CMD write, a host event, a step. -/

namespace Sys2Proof.Machine

/-! ### Commands -/

theorem Flags.withComparison_legal (f : Flags) (h : f.Legal) (c : Ordering) : (f.withComparison c).Legal where
  le_iff := by cases c <;> rfl
  ge_iff := by cases c <;> rfl
  one_of := by cases c <;> exact ⟨rfl, rfl, rfl⟩
  zero_test := h.zero_test

theorem Flags.withZeroTest_legal (f : Flags) (h : f.Legal) (b : Bool) : (f.withZeroTest b).Legal where
  le_iff := h.le_iff
  ge_iff := h.ge_iff
  one_of := h.one_of
  zero_test := by cases b <;> rfl

/-- Everything a command can do: record an error, clear the errors (CLRERR), write the comparator
bits (CMP, TSTZ), or write its destinations (10_state.md R107, 60_exceptions.md R603). -/
theorem exec_next_cases {i : Instr} {s t : State} (h : exec i s = .next t) :
    (∃ e, t = { s with err := some e })
    ∨ (i = .clrerr ∧ t = clearErrors s)
    ∨ ((∃ a b, i = .cmp a b) ∧ ∃ c, t = { s with flags := s.flags.withComparison c })
    ∨ ((∃ a, i = .tstz a) ∧ ∃ b, t = { s with flags := s.flags.withZeroTest b })
    ∨ (i = .nop ∧ t = s)
    ∨ (∃ d r, destinations i = [d] ∧ t = s.setReg d r)
    ∨ (∃ d e r r', destinations i = [d, e] ∧ t = (s.setReg d r).setReg e r') := by
  cases i <;>
    simp only [exec, execNop, execClr, execCopy, execConst, execSetw, execSetlen, execClrerr, execAdd,
      execSub, execMul, execDiv, execMod, execMulmod, execCmp, execTstz, raise] at h <;>
    (repeat' split at h) <;> cases h
  case nop => simp
  case clrerr => simp
  case cmp.isTrue a b _ => exact .inl ⟨_, rfl⟩
  case tstz.isTrue => exact .inl ⟨_, rfl⟩
  case cmp.isFalse => exact .inr (.inr (.inl ⟨⟨_, _, rfl⟩, _, rfl⟩))
  case tstz.isFalse => exact .inr (.inr (.inr (.inl ⟨⟨_, rfl⟩, _, rfl⟩)))
  case div.isFalse.isFalse.isFalse =>
    exact .inr (.inr (.inr (.inr (.inr (.inr ⟨_, _, _, _, rfl, rfl⟩)))))
  all_goals first
    | exact .inl ⟨_, rfl⟩
    | exact .inr (.inr (.inr (.inr (.inr (.inl ⟨_, _, rfl, rfl⟩)))))

theorem const_rom_value (k v : Nat) (h : constantRom[k]? = some v) : v = k ∧ k ≤ 10 := by
  have hk : k < 11 := by
    have := (List.getElem?_eq_some_iff.1 h).1
    simpa [constantRom] using this
  have : ∀ k, k < 11 → constantRom[k]? = some k := by decide
  rw [this k hk] at h
  exact ⟨(Option.some.inj h).symm, by omega⟩

/-- On a state of the invariant, every register a command leaves is well formed. -/
theorem exec_keeps_regs {i : Instr} {s t : State} (hs : s.Inv) (h : exec i s = .next t) (r : RegIx) :
    (t.reg r).Ok s.maxLimbs := by
  have hw : ∀ (u : State) (d : RegIx) (v : Nat), u.maxLimbs = s.maxLimbs →
      (∀ j, (u.reg j).Ok s.maxLimbs) → nlimbs v ≤ s.maxLimbs →
      ∀ j, ((u.writeReg d v).reg j).Ok s.maxLimbs := by
    intro u d v hm hu hv j
    rw [reg_writeReg]
    split
    · rw [hm]; exact BigReg.ofNat_ok _ _ hv
    · exact hu j
  have h20 := hs.cap_range.1
  cases i <;>
    simp only [exec, execNop, execClr, execCopy, execConst, execSetw, execSetlen, execClrerr, execAdd,
      execSub, execMul, execDiv, execMod, execMulmod, execCmp, execTstz, raise] at h <;>
    (repeat' split at h) <;> cases h
  case clr => exact hw s _ _ rfl hs.regs_ok (by simp) r
  case copy.isFalse rd rs1 hd =>
    rw [Bool.not_eq_true, s.anyDirty_eq_false] at hd
    exact hw s _ _ rfl hs.regs_ok (hs.nlimbs_val_le (hd rs1 (by simp))) r
  case h_1 rd k _ v hk =>
    obtain ⟨rfl, hv⟩ := const_rom_value k v hk
    refine hw s _ _ rfl hs.regs_ok (le_trans ((nlimbs_le_iff v 1).2 ?_) (by omega)) r
    norm_num [radix]; omega
  case setw rd =>
    refine hw s _ _ rfl hs.regs_ok (le_trans ((nlimbs_le_iff _ 1).2 ?_) (by omega)) r
    rw [pow_one]; exact word_lt_radix _
  case setlen.isFalse rd hn =>
    have hl := (hs.regs_ok rd).limbs_length
    rw [reg_setReg]
    split
    · rw [BigReg.normalise_eq _ _ _ hl (by omega)]
      exact BigReg.ofNat_ok _ _ (le_trans (BigReg.nlimbs_take_le _ _) (by omega))
    · exact hs.regs_ok r
  case add.isFalse.isFalse hn =>
    exact hw s _ _ rfl hs.regs_ok (le_trans (nlimbs_limbsVal_le _) (by omega)) r
  case sub.isFalse.isFalse rd rs1 rs2 hd hlt =>
    rw [Bool.not_eq_true, s.anyDirty_eq_false] at hd
    refine hw s _ _ rfl hs.regs_ok ?_ r
    rw [subtractor, limbsVal_trimLimbs]
    refine le_trans (nlimbs_limbsVal_le _) ?_
    have : ∀ (c : Nat) (a b : List Word), (subLoop c a b).length = a.length := by
      intro c a
      induction a generalizing c with
      | nil => intro b; rfl
      | cons x xs ih => intro b; simp [subLoop, ih]
    rw [this, State.live, (hs.regs_ok rs1).live_length]
    exact (hs.regs_ok rs1).len_le
  case mul.isFalse.isFalse hn =>
    exact hw s _ _ rfl hs.regs_ok (le_trans (nlimbs_limbsVal_le _) (by omega)) r
  case div.isFalse.isFalse.isFalse rd rs1 rs2 rs3 hne hd h0 =>
    rw [Bool.not_eq_true, s.anyDirty_eq_false] at hd
    have h1 := hd rs1 (by simp)
    have h2 := hd rs2 (by simp)
    rw [hs.divider_eq h1 h2 h0]
    refine hw (s.writeReg rd (s.val rs1 / s.val rs2)) _ _ rfl (hw s _ _ rfl hs.regs_ok ?_) ?_ r
    · exact le_trans (nlimbs_mono (Nat.div_le_self _ _)) (hs.nlimbs_val_le h1)
    · exact le_trans (nlimbs_mono (Nat.mod_le _ _)) (hs.nlimbs_val_le h1)
  case mod.isFalse.isFalse rd rs1 rs2 hd h0 =>
    rw [Bool.not_eq_true, s.anyDirty_eq_false] at hd
    have h1 := hd rs1 (by simp)
    have h2 := hd rs2 (by simp)
    rw [hs.divider_eq h1 h2 h0]
    refine hw s _ _ rfl hs.regs_ok ?_ r
    exact le_trans (nlimbs_mono (Nat.mod_le _ _)) (hs.nlimbs_val_le h1)
  case mulmod.isFalse.isFalse rd rs1 rs2 rs3 hd h0 =>
    rw [Bool.not_eq_true, s.anyDirty_eq_false] at hd
    have h3 := hd rs3 (by simp)
    rw [divider_spec _ _ (productArray_noLeadingZero _ _) (hs.live_noLeadingZero h3) (hs.live_ne_nil h0)]
    refine hw s _ _ rfl hs.regs_ok ?_ r
    have hpos : 0 < limbsVal (s.live rs3) := by
      rcases Nat.eq_zero_or_pos (limbsVal (s.live rs3)) with h | h
      · exact absurd ((hs.len_eq_zero_iff h3).2 h) h0
      · exact h
    exact le_trans (nlimbs_mono (Nat.mod_lt _ hpos).le) (hs.nlimbs_val_le h3)
  all_goals exact hs.regs_ok r

/-! ### The command path -/

/-- Everything a CMD write can do (60_exceptions.md R605). -/
theorem issue_next_cases {w : Word} {s t : State} (h : issue w s = .next t) :
    (s.busy = true ∧ t = overrun s)
    ∨ (s.busy = false ∧ w = clrerrWord ∧ t = clearErrors s)
    ∨ (s.busy = false ∧ w ≠ clrerrWord ∧ (s.err.isSome || s.ovr) = true ∧ t = reject s)
    ∨ (s.busy = false ∧ w ≠ clrerrWord ∧ s.err = none ∧ s.ovr = false ∧ t = accept w s) := by
  simp only [issue] at h
  split at h
  · cases h; exact .inl ⟨‹_›, rfl⟩
  · rename_i hb
    rw [Bool.not_eq_true] at hb
    split at h
    · rename_i hw
      simp only [exec, execClrerr] at h
      cases h; exact .inr (.inl ⟨hb, hw, rfl⟩)
    · rename_i hw
      split at h
      · rename_i he
        cases h; exact .inr (.inr (.inl ⟨hb, hw, he, rfl⟩))
      · rename_i he
        cases h
        simp only [Bool.or_eq_true, not_or, Bool.not_eq_true, Option.isSome_eq_false_iff,
          Option.isNone_iff_eq_none] at he
        exact .inr (.inr (.inr ⟨hb, hw, he.1, he.2, rfl⟩))

/-- What a pending word does: its command, or ILLEGAL_OP (60_exceptions.md R605). -/
theorem runWord_next_cases {w : Word} {s t : State} (h : runWord w s = .next t) :
    (∃ i, decode w = .ok i ∧ exec i s = .next t)
    ∨ ((∃ e, decode w = .error e) ∧ t = { s with err := some .illegalOp }) := by
  simp only [runWord] at h
  split at h
  · exact .inl ⟨_, ‹_›, h⟩
  · cases h; exact .inr ⟨⟨_, ‹_›⟩, rfl⟩

theorem andThen_next {r : Result} {f : State → State} {t : State} (h : andThen r f = .next t) :
    ∃ u, r = .next u ∧ t = f u := by
  cases r <;> simp only [andThen] at h <;> cases h
  exact ⟨_, rfl, rfl⟩

/-! ### Host events -/

/-- Everything a legal write can do but for CMD (20_memory.md R205 to R207). -/
theorem writeTarget_next_cases {g : Target} {v : Word} {s t : State}
    (h : writeTarget g v s = .next t) :
    (g = .cmd ∧ issue v s = .next t)
    ∨ (s.busy = true ∧ t = overrun s)
    ∨ (g = .data ∧ s.busy = false ∧ t = { s with data := v })
    ∨ (∃ i k, g = .limb i k ∧ s.busy = false ∧ t = s.writeLimb i k v)
    ∨ t = s := by
  cases g <;> simp only [writeTarget] at h
  case cmd => exact .inl ⟨rfl, h⟩
  case data =>
    split at h <;> cases h
    · exact .inr (.inl ⟨‹_›, rfl⟩)
    · rename_i hb
      exact .inr (.inr (.inl ⟨rfl, Bool.not_eq_true _ ▸ hb, rfl⟩))
  case limb =>
    split at h <;> cases h
    · exact .inr (.inl ⟨‹_›, rfl⟩)
    · rename_i hb
      exact .inr (.inr (.inr (.inl ⟨_, _, rfl, Bool.not_eq_true _ ▸ hb, rfl⟩)))
  all_goals cases h; exact .inr (.inr (.inr (.inr rfl)))

/-- A read changes the answer, and the count of free values when the value is open (R208, R209). -/
theorem readTarget_cases (g : Target) (s : State) :
    ∃ b d, readTarget g s = { s with bus := b, draws := d } := by
  simp only [readTarget]
  split
  · exact ⟨_, _, rfl⟩
  · exact ⟨_, s.draws, rfl⟩

/-- Everything a host event can do. -/
theorem hostEvent_next_cases {e : HostEvent} {s t : State} (h : hostEvent e s = .next t) :
    (∃ b d q, t = { s with bus := b, draws := d, host := q } ∧ (q = s.host ∨ q = .poll :: s.host))
    ∨ (e = .reset ∧ t = resetBlock s)
    ∨ (∃ width off v u, e = .write width off v ∧ legalAccess width off = true
        ∧ writeTarget (target s.maxLimbs off) v s = .next u ∧ t = { u with bus := some .done }) := by
  cases e <;> simp only [hostEvent, hostRead, hostWrite] at h
  case read width off =>
    split at h <;> cases h
    obtain ⟨b, d, e⟩ := readTarget_cases (target s.maxLimbs off) s
    exact .inl ⟨b, d, s.host, by rw [e], .inl rfl⟩
  case write width off v =>
    split at h
    · obtain ⟨u, hu, rfl⟩ := andThen_next h
      exact .inr (.inr ⟨width, off, v, u, rfl, ‹_›, hu, rfl⟩)
    · cases h
  case poll =>
    cases h
    obtain ⟨b, d, e⟩ := readTarget_cases .status s
    rw [e]
    split
    · exact .inl ⟨b, d, _, rfl, .inr rfl⟩
    · exact .inl ⟨b, d, _, rfl, .inl rfl⟩
  case reset => cases h; exact .inr (.inl ⟨rfl, rfl⟩)

/-! ### The step -/

/-- Everything a step can be: the completion step of the pending word, the wait of a machine with
nothing to do, or one host event (00_scope.md R21, 20_memory.md R215). -/
theorem step_next_cases {s t : State} (h : step s = .next t) :
    (∃ w u, s.completes = true ∧ s.pend = some w ∧ runWord w s = .next u ∧ t = finish u)
    ∨ (s.completes = false ∧ s.host = [] ∧ t = s)
    ∨ (∃ e rest, s.HostTurn e rest ∧ hostEvent e (s.taken rest) = .next t) := by
  simp only [step, turn] at h
  split at h
  · rename_i hc
    split at h
    · obtain ⟨u, hu, rfl⟩ := andThen_next h
      exact .inl ⟨_, u, hc, ‹_›, hu, rfl⟩
    · rename_i hn
      simp [State.completes, State.busy, hn] at hc
  · rename_i hc
    rw [Bool.not_eq_true] at hc
    split at h
    · cases h; exact .inr (.inl ⟨hc, ‹_›, rfl⟩)
    · exact .inr (.inr ⟨_, _, ⟨hc, ‹_›⟩, h⟩)

/-- A completion step, computed. -/
theorem step_of_completes {s : State} {w : Word} (hc : s.completes = true) (hp : s.pend = some w) :
    step s = completeWord w s := by
  simp [step, turn, hc, hp]

/-- A host event's step, computed. -/
theorem step_of_hostTurn {s : State} {e : HostEvent} {rest : List HostEvent} (h : s.HostTurn e rest) :
    step s = hostEvent e (s.taken rest) := by
  simp [step, turn, h.1, h.2, State.taken]

end Sys2Proof.Machine
end

