-- ==== Sys2Proof/Laws/Bus.lean ====
section
/-! SUPPORT. The register map at each range of offsets (20_memory.md R201), and the steps of legal host accesses,
computed. -/

namespace Sys2Proof.Machine

/-! ### The register map -/

/-- An aligned 32-bit access is legal (20_memory.md R202). -/
theorem legalAccess_of_aligned {off : Offset} (h : off.toNat % 4 = 0) : legalAccess 4 off = true := by
  have : off.extractLsb' 0 2 = 0 := by
    apply BitVec.eq_of_toNat_eq
    simp [h]
  simp [legalAccess, this]

theorem target_eq_cmd {m : Nat} {off : Offset} (h : target m off = .cmd) : off = 0 := by
  simp only [target] at h
  split at h
  · apply BitVec.eq_of_toNat_eq; simpa using ‹_›
  · (repeat' split at h) <;> cases h

/-- The 64 bytes of the LEN registers: each word names its register. -/
theorem target_len {m : Nat} (off : Offset) (i : RegIx) (h : off.toNat = 0x40 + 4 * i.val) :
    target m off = .len i := by
  have hn : Fin.ofNat 16 ((off.toNat - 0x40) / 4) = i := by
    apply Fin.ext
    have := i.isLt
    simp only [Fin.val_ofNat]; omega
  simp only [target, hn]
  (repeat' split) <;> first | rfl | omega

/-- A limb window below `MAX_LIMBS`: each word names its register and its limb. -/
theorem target_limb {m : Nat} (off : Offset) (i k : Nat) (hi : i < 16) (hk : k < 1024) (hm : k < m)
    (h : off.toNat = 0x1000 + 0x1000 * i + 4 * k) : target m off = .limb ⟨i, hi⟩ k := by
  have hr : Fin.ofNat 16 ((off.toNat - 0x1000) / 0x1000) = (⟨i, hi⟩ : RegIx) := by
    apply Fin.ext
    simp only [Fin.val_ofNat]; omega
  have hl : (off.toNat - 0x1000) % 0x1000 / 4 = k := by omega
  simp only [target, hr, hl]
  (repeat' split) <;> first | rfl | omega

theorem target_ne_limb {m : Nat} (off : Offset)
    (h : ¬(0x1000 ≤ off.toNat ∧ off.toNat < 0x11000 ∧ (off.toNat - 0x1000) % 0x1000 / 4 < m))
    (i : RegIx) (k : Nat) : target m off ≠ .limb i k := by
  simp only [target]
  rw [if_neg (c := 0x01000 ≤ off.toNat ∧ off.toNat < 0x11000
    ∧ (off.toNat - 0x1000) % 0x1000 / 4 < m) h]
  (repeat' split) <;> simp

theorem target_reserved {m : Nat} (off : Offset)
    (h : (0x018 ≤ off.toNat ∧ off.toNat ≤ 0x03C) ∨ (0x080 ≤ off.toNat ∧ off.toNat ≤ 0xFFC)
      ∨ (∃ i k : Nat, i < 16 ∧ k < 1024 ∧ m ≤ k ∧ off.toNat = 0x1000 + 0x1000 * i + 4 * k)
      ∨ 0x11000 ≤ off.toNat) : target m off = .reserved := by
  have hk : (∃ i k : Nat, i < 16 ∧ k < 1024 ∧ m ≤ k ∧ off.toNat = 0x1000 + 0x1000 * i + 4 * k) →
      0x1000 ≤ off.toNat ∧ ¬((off.toNat - 0x1000) % 0x1000 / 4 < m) := by
    rintro ⟨i, k, _, _, _, _⟩; constructor <;> omega
  have : (0x018 ≤ off.toNat ∧ off.toNat ≤ 0x03C) ∨ (0x080 ≤ off.toNat ∧ off.toNat ≤ 0xFFC)
      ∨ (0x1000 ≤ off.toNat ∧ ¬((off.toNat - 0x1000) % 0x1000 / 4 < m)) ∨ 0x11000 ≤ off.toNat := by
    rcases h with h | h | h | h
    · exact .inl h
    · exact .inr (.inl h)
    · exact .inr (.inr (.inl (hk h)))
    · exact .inr (.inr (.inr h))
  simp only [target]
  (repeat' split) <;> first | rfl | omega

/-! ### Steps of the host -/

theorem busy_of_pend {s : State} (h : s.pend ≠ none) : s.busy = true := by
  simpa [State.busy, Option.isSome_iff_ne_none] using h

theorem not_busy_of_pend {s : State} (h : s.pend = none) : s.busy = false := by
  simp [State.busy, h]

/-- An idle block leaves the turn to the host. -/
theorem hostTurn_of_idle {s : State} {e : HostEvent} {rest : List HostEvent} (hp : s.pend = none)
    (hh : s.host = e :: rest) : s.HostTurn e rest :=
  ⟨by simp [State.completes, State.busy, hp], hh⟩

theorem step_of_read {s : State} {off : Offset} {rest : List HostEvent}
    (h : s.HostTurn (.read 4 off) rest) (ho : off.toNat % 4 = 0) :
    step s = .next (readTarget (target s.maxLimbs off) (s.taken rest)) := by
  rw [step_of_hostTurn h]
  simp only [hostEvent, hostRead, legalAccess_of_aligned ho, if_true]
  rfl

theorem step_of_write {s : State} {off : Offset} {v : Word} {rest : List HostEvent}
    (h : s.HostTurn (.write 4 off v) rest) (ho : off.toNat % 4 = 0) :
    step s = andThen (writeTarget (target s.maxLimbs off) v (s.taken rest))
      fun t => { t with bus := some .done } := by
  rw [step_of_hostTurn h]
  simp only [hostEvent, hostWrite, legalAccess_of_aligned ho, if_true]
  rfl

/-- A write to CMD is an issue (20_memory.md R203). -/
theorem step_of_writeCmd {s : State} {w : Word} {rest : List HostEvent}
    (h : s.HostTurn (.write 4 0 w) rest) :
    step s = andThen (issue w (s.taken rest)) fun t => { t with bus := some .done } := by
  rw [step_of_hostTurn h]
  rfl

theorem issue_next (w : Word) (s : State) : ∃ t, issue w s = .next t := by
  simp only [issue, exec, execClrerr]
  (repeat' split) <;> exact ⟨_, rfl⟩

/-- No legal write stops the machine. -/
theorem writeTarget_next (g : Target) (v : Word) (s : State) : ∃ t, writeTarget g v s = .next t := by
  cases g <;> simp only [writeTarget]
  case cmd => exact issue_next _ _
  all_goals exact ⟨_, rfl⟩

/-- CLRERR's word is the only one that decodes to CLRERR. -/
theorem decode_eq_clrerr {w : Word} (h : decode w = .ok .clrerr) : w = clrerrWord := by
  rw [decode_eq_ok_iff] at h
  have h : w &&& 4294967295#32 = clrerrWord := by simpa [opcodeMap, Row.spells, clrerrWord] using h
  rwa [show (4294967295#32 : Word) = BitVec.allOnes 32 from rfl, BitVec.and_allOnes] at h

/-! ### The host's limb writes -/

theorem offsetOf_zero {addr : Nat} (h : addr < 2 ^ 17) : offsetOf 0 addr = some (BitVec.ofNat 17 addr) := by
  simp only [offsetOf, Nat.zero_le, true_and, Nat.zero_add, h, if_true, Nat.sub_zero]

/-- A limb write inside the block is one event (30_encoding.md R321). -/
theorem limbWrites_cons {addr : Nat} (v : Word) (vs : List Word) (h : addr < 2 ^ 17) :
    limbWrites addr (v :: vs) = .write 4 (BitVec.ofNat 17 addr) v :: limbWrites (addr + 4) vs := by
  simp [limbWrites, offsetOf_zero h]

/-- A limb write above the block is none (log entry 16). -/
theorem limbWrites_cons_outside {addr : Nat} (v : Word) (vs : List Word) (h : 2 ^ 17 ≤ addr) :
    limbWrites addr (v :: vs) = limbWrites (addr + 4) vs := by
  have : offsetOf 0 addr = none := if_neg (by omega)
  simp [limbWrites, this]

/-! ### Runs -/

theorem run_succ (k : Nat) {s t : State} (h : step s = .next t) :
    Sys2Proof.core.run (k + 1) s = Sys2Proof.core.run k t := by
  have : Sys2Proof.core.step s = .next t := h
  simp only [Host.Core.run, this]

end Sys2Proof.Machine
end

