-- ==== Sys2Proof/Laws/PerInstr.lean ====
section
/-! SUPPORT. Statements made per instruction: the op field each command's word carries (30_encoding.md R304). -/

namespace Sys2Proof.Laws.EncodedOpcode

/-- The op column of the opcode map (R304). -/
def opcode : Instr → BitVec 8
  | .nop => 0x01
  | .clr _ => 0x02
  | .copy _ _ => 0x03
  | .const _ _ => 0x04
  | .setw _ => 0x05
  | .setlen _ => 0x06
  | .clrerr => 0x07
  | .add _ _ _ => 0x10
  | .sub _ _ _ => 0x11
  | .mul _ _ _ => 0x12
  | .div _ _ _ _ => 0x13
  | .mod _ _ _ => 0x14
  | .mulmod _ _ _ _ => 0x15
  | .cmp _ _ => 0x20
  | .tstz _ => 0x21

/-- The word of a command carries its opcode in bits 31:24. -/
def Statement (i : Instr) : Prop := opField (encode i) = opcode i

theorem nop : Statement .nop := opField_mkWord ..
theorem clr (rd : RegIx) : Statement (.clr rd) := opField_mkWord ..
theorem copy (rd rs1 : RegIx) : Statement (.copy rd rs1) := opField_mkWord ..
theorem const (rd : RegIx) (k : Nat) : Statement (.const rd k) := opField_mkWord ..
theorem setw (rd : RegIx) : Statement (.setw rd) := opField_mkWord ..
theorem setlen (rd : RegIx) : Statement (.setlen rd) := opField_mkWord ..
theorem clrerr : Statement .clrerr := opField_mkWord ..
theorem add (rd rs1 rs2 : RegIx) : Statement (.add rd rs1 rs2) := opField_mkWord ..
theorem sub (rd rs1 rs2 : RegIx) : Statement (.sub rd rs1 rs2) := opField_mkWord ..
theorem mul (rd rs1 rs2 : RegIx) : Statement (.mul rd rs1 rs2) := opField_mkWord ..
theorem div (rd rs1 rs2 rs3 : RegIx) : Statement (.div rd rs1 rs2 rs3) := opField_mkWord ..
theorem mod (rd rs1 rs2 : RegIx) : Statement (.mod rd rs1 rs2) := opField_mkWord ..
theorem mulmod (rd rs1 rs2 rs3 : RegIx) : Statement (.mulmod rd rs1 rs2 rs3) := opField_mkWord ..
theorem cmp (rs1 rs2 : RegIx) : Statement (.cmp rs1 rs2) := opField_mkWord ..
theorem tstz (rs1 : RegIx) : Statement (.tstz rs1) := opField_mkWord ..

end Sys2Proof.Laws.EncodedOpcode
end

