-- ==== Sys2Proof/Tests/Slice0.lean ====
section
/-! SUPPORT. The model's own tests: decoding, one step each from the spec's test vectors (95_test_vectors.md), and a
witness for the hypotheses of each statement. -/

namespace Sys2Proof.Tests

-- One theorem after the other: many kernel evaluations at once ask for more threads than the check allows.
set_option Elab.async false

open Sys2Proof.Machine

/-! ### Building and reading small states -/

/-- A block with MAX_LIMBS = 20 and the given values in its registers. -/
def load (xs : List (RegIx × List Word)) : State :=
  xs.foldl (fun s x => s.writeReg x.1 (limbsVal x.2)) (State.resetWith 20)

/-- The next state of an outcome. -/
def next? : Result → Option State
  | .next t => some t
  | _ => none

/-- The limbs that count of register `i` in the next state. -/
def reg? (r : Result) (i : RegIx) : Option (List Word) := (next? r).map fun t => t.live i

/-- The STATUS word of the next state. -/
def status? (r : Result) : Option Word := (next? r).map fun t => t.statusWord

/-- The FLAGS word of the next state. -/
def flags? (r : Result) : Option Word := (next? r).map fun t => t.flags.word

/-- The host's answer in the next state. -/
def reply? (r : Result) : Option Reply := (next? r).bind fun t => t.bus

/-! ### Well-formedness and decoding -/

theorem test_const_ill_formed : Instr.wellFormed (.const 0 256) = false := by decide
theorem test_const_well_formed : Instr.wellFormed (.const 0 255) = true := by decide

-- One word of each command, its bits written out from 30_encoding.md R300 and R304:
-- op(8) rd(4) rs1(4) rs2(4) rs3(4) imm8(8).
theorem test_decode_nop : decode 0b00000001_0000_0000_0000_0000_00000000 = .ok .nop := by decide +kernel
theorem test_decode_clr : decode 0b00000010_1111_0000_0000_0000_00000000 = .ok (.clr 15) := by decide +kernel
theorem test_decode_copy : decode 0b00000011_0010_0001_0000_0000_00000000 = .ok (.copy 2 1) := by
  decide +kernel
theorem test_decode_const : decode 0b00000100_0111_0000_0000_0000_11111110 = .ok (.const 7 254) := by
  decide +kernel
theorem test_decode_setw : decode 0b00000101_0011_0000_0000_0000_00000000 = .ok (.setw 3) := by
  decide +kernel
theorem test_decode_setlen : decode 0b00000110_0100_0000_0000_0000_00000000 = .ok (.setlen 4) := by
  decide +kernel
theorem test_decode_clrerr : decode 0b00000111_0000_0000_0000_0000_00000000 = .ok .clrerr := by
  decide +kernel
theorem test_decode_add : decode 0b00010000_0011_0001_0010_0000_00000000 = .ok (.add 3 1 2) := by
  decide +kernel
theorem test_decode_sub : decode 0b00010001_1000_0100_0001_0000_00000000 = .ok (.sub 8 4 1) := by
  decide +kernel
theorem test_decode_mul : decode 0b00010010_0001_0010_0100_0000_00000000 = .ok (.mul 1 2 4) := by
  decide +kernel
theorem test_decode_div : decode 0b00010011_0100_0001_0010_0101_00000000 = .ok (.div 4 1 2 5) := by
  decide +kernel
theorem test_decode_mod : decode 0b00010100_1001_0110_0011_0000_00000000 = .ok (.mod 9 6 3) := by
  decide +kernel
theorem test_decode_mulmod : decode 0b00010101_0001_0010_0100_1000_00000000 = .ok (.mulmod 1 2 4 8) := by
  decide +kernel
theorem test_decode_cmp : decode 0b00100000_0000_0001_0010_0000_00000000 = .ok (.cmp 1 2) := by
  decide +kernel
theorem test_decode_tstz : decode 0b00100001_0000_0011_0000_0000_00000000 = .ok (.tstz 3) := by
  decide +kernel

-- The DIV example of R322 as the bytes of its bus write, least significant lane first (20_memory.md R211), and as
-- the assembler writes it (R320).
theorem test_decode_bytes : decodeBytes [0x00, 0x25, 0x41, 0x13] = .ok (.div 4 1 2 5) := by decide +kernel
theorem test_decode_short : decodeBytes [0x00, 0x25, 0x41] = .error .notOneWord := by decide +kernel
theorem test_assembly_div : assembly (.div 4 1 2 5) = "DIV r4, r5, r1, r2" := by decide +kernel

-- R305: V-E3, V-E4, V-E5.
theorem test_decode_must_be_zero : decode 0x10312001 = .error (.mustBeZeroSet 0x10) := by decide +kernel
theorem test_decode_unassigned : decode 0xFF000000 = .error (.unassignedOpcode 0xFF) := by decide +kernel
theorem test_decode_cmp_rd : decode 0x20112000 = .error (.mustBeZeroSet 0x20) := by decide +kernel

/-! ### One command each (95_test_vectors.md sections 2.2 to 2.8) -/

-- V-Y1.
theorem test_nop : next? (exec .nop (load [])) = some (load []) := by decide +kernel

-- V-Y2.
theorem test_clrerr : status? (exec .clrerr { load [] with err := some .divZero, ovr := true, rej := true })
    = some 0 := by decide +kernel

-- V-R2.
theorem test_clr_dirty : (next? (exec (.clr 5) ((load []).writeLimb 5 0 9))).map (fun t => (t.live 5, t.dirty 5))
    = some ([], false) := by decide +kernel

-- V-R3, V-R4.
theorem test_copy : reg? (exec (.copy 2 1) (load [(1, [2, 1])])) 2 = some [2, 1] := by decide +kernel
theorem test_copy_dirty : status? (exec (.copy 2 1) ((load []).writeLimb 1 0 9)) = some 0x300 := by
  decide +kernel

-- V-R6, V-E7.
theorem test_const : reg? (exec (.const 2 10) (load [])) 2 = some [0xA] := by decide +kernel
theorem test_const_bad : status? (exec (.const 2 11) (load [])) = some 0x200 := by decide +kernel

-- V-R9, V-R8.
theorem test_setw : reg? (exec (.setw 3) { load [] with data := 0xFFFFFFFF }) 3 = some [0xFFFFFFFF] := by
  decide +kernel
theorem test_setw_zero : reg? (exec (.setw 3) (load [(3, [7])])) 3 = some [] := by decide +kernel

-- V-R11, V-R13.
theorem test_setlen : (next? (exec (.setlen 1) { load [(1, [1, 2, 3])] with data := 2 })).map
    (fun t => (t.live 1, (t.reg 1).limb 2)) = some ([1, 2], 0) := by decide +kernel
theorem test_setlen_trim : (next? (exec (.setlen 0) { (load []).writeLimb 0 5 7 with data := 5 })).map
    (fun t => (t.len 0, (t.reg 0).limb 5, t.dirty 0)) = some (0, 0, false) := by decide +kernel

-- V-C6, V-C3.
theorem test_cmp_keeps_zero : flags? (exec (.cmp 1 2)
    { load [(1, [2]), (2, [3])] with flags := { Flags.zero with z := true } }) = some 0x2A := by
  decide +kernel
theorem test_cmp_low_limb : flags? (exec (.cmp 1 2) (load [(1, [5, 1]), (2, [6, 1])])) = some 0x0A := by
  decide +kernel

-- V-C7, V-C10.
theorem test_tstz : flags? (exec (.tstz 3)
    { load [] with flags := { Flags.zero with gt := true, ge := true } }) = some 0x34 := by decide +kernel
theorem test_tstz_dirty : status? (exec (.tstz 5) ((load []).writeLimb 5 0 9)) = some 0x300 := by
  decide +kernel

-- V-A3, V-A6.
theorem test_add_carry : reg? (exec (.add 3 1 2)
    (load [(1, [0xFFFFFFFF, 0xFFFFFFFF]), (2, [1, 0xFFFFFFFF])])) 3 = some [0, 0xFFFFFFFF, 1] := by
  decide +kernel
theorem test_add_capacity : status? (exec (.add 3 1 2)
    (load [(1, List.replicate 20 0xFFFFFFFF), (2, [1])])) = some 0x600 := by decide +kernel

-- V-S2, V-S6.
theorem test_sub_borrow : reg? (exec (.sub 3 1 2) (load [(1, [0, 0, 1]), (2, [1, 0xFFFFFFFF])])) 3
    = some [0xFFFFFFFF] := by decide +kernel
theorem test_sub_underflow : status? (exec (.sub 3 1 2) (load [(1, [5, 1]), (2, [6, 1])])) = some 0x500 := by
  decide +kernel

-- V-M4, V-M2.
theorem test_mul_ripple : reg? (exec (.mul 3 1 1) (load [(1, [0xFFFFFFFF, 0xFFFFFFFF, 0xFFFFFFFF])])) 3
    = some [1, 0, 0, 0xFFFFFFFE, 0xFFFFFFFF, 0xFFFFFFFF] := by decide +kernel
theorem test_mul_zero : reg? (exec (.mul 3 1 2) (load [(2, [1, 1])])) 3 = some [] := by decide +kernel

-- V-D10 (add-back), V-D6 (BAD_OPERAND first).
theorem test_div_add_back : (next? (exec (.div 4 1 2 5)
    (load [(1, [0, 0xFFFFFFFE, 0, 0x80000000]), (2, [0xFFFFFFFF, 0, 0x80000000])]))).map
    (fun t => (t.live 4, t.live 5)) = some ([0xFFFFFFFF], [0xFFFFFFFF, 0xFFFFFFFF, 0x7FFFFFFF]) := by
  decide +kernel
theorem test_div_bad_operand : status? (exec (.div 1 2 3 1) ((load []).writeLimb 2 0 4)) = some 0x200 := by
  decide +kernel

-- V-O2, V-O6.
theorem test_mod_small : reg? (exec (.mod 3 1 2) (load [(1, [5]), (2, [7])])) 3 = some [5] := by
  decide +kernel
theorem test_mod_dirty_first : status? (exec (.mod 4 1 2) ((load []).writeLimb 1 0 9)) = some 0x300 := by
  decide +kernel

-- V-O11, V-O9.
theorem test_mulmod_wide : reg? (exec (.mulmod 3 1 1 2)
    (load [(1, List.replicate 20 0xFFFFFFFF), (2, [1000003])])) 3 = some [982939] := by decide +kernel
theorem test_mulmod_zero : status? (exec (.mulmod 4 1 2 3) (load [(2, [9])])) = some 0x400 := by
  decide +kernel

-- The digits of the traces of V-D10 (add-back) and V-D12b (refinement).
theorem test_trace_add_back :
    (knuthDigit [0xFFFFFFFF, 0, 0x80000000] 1 [0, 0xFFFFFFFE, 0, 0x80000000, 0]).1 = 0 := by decide +kernel
theorem test_trace_refine : (knuthDigit [0x80000000, 0x80000000] 1 [0, 0, 0, 1]).1 = 1 := by
  decide +kernel

/-! ### The command path, the bus, reset -/

/-- `r1 = [5]`, `r2 = [7]`: the start of the sequence V-X, and the host about to act. -/
def idle (e : HostEvent) : State := { load [(1, [5]), (2, [7])] with host := [e] }

/-- The same with an ADD pending that still waits. -/
def busy (e : HostEvent) : State :=
  { load [(1, [5]), (2, [7])] with pend := some 0x10312000, wait := 3, host := [e] }

/-- The same with `w` pending and next to complete. -/
def pending (w : Word) : State := { load [(1, [5]), (2, [7])] with pend := some w }

-- V-X, steps 1, 2, 3, 5.
theorem test_issue : status? (step (idle (.write 4 0 0x10312000))) = some 1 := by decide +kernel
theorem test_overrun : status? (step (busy (.write 4 0 0x11421000))) = some 3 := by decide +kernel
theorem test_overrun_limb : reg? (step (busy (.write 4 0x2000 99))) 1 = some [5] := by decide +kernel
theorem test_completion : reg? (step (pending 0x10312000)) 3 = some [12] := by decide +kernel

-- V-Y3, V-E6.
theorem test_rejected : status? (step { idle (.write 4 0 0x01000000) with err := some .divZero })
    = some 0x404 := by decide +kernel
theorem test_not_clrerr : status? (step (pending 0x07000001)) = some 0x100 := by decide +kernel

-- V-B1, V-B2, V-B5, V-B8.
theorem test_byte_order : (List.range 4).map ((load [(1, [0x11223344])]).windowByte 1)
    = [0x44, 0x33, 0x22, 0x11] := by decide +kernel
theorem test_read_len : reply? (step { load [(1, [5, 1])] with host := [.read 4 0x044] })
    = some (.data 2) := by decide +kernel
theorem test_write_status : status? (step { idle (.write 4 4 0) with err := some .divZero }) = some 0x400 := by
  decide +kernel
theorem test_bus_error : step (idle (.write 2 8 0)) = .fault (.busError 2 8) := by rfl

-- V-B6, V-B7, from reset: MAX_LIMBS = 128.
theorem test_cap : reply? (step { State.reset with host := [.read 4 0x010] }) = some (.data 0x80) := by
  decide +kernel
theorem test_window_end : (next? (step { State.reset with host := [.write 4 0x1200 9] })).map
    (fun t => t.dirtyWord) = some 0 := by decide +kernel

-- V-Z1.
theorem test_reset_discards : (next? (step { busy .reset with err := some .capacity, rej := true })).map
    (fun t => (t.statusWord, t.live 1, t.pend)) = some (0, [], none) := by decide +kernel

-- The first step after reset runs a placed command: V-R5's shape, and CLRERR at issue.
theorem test_place_setw : reg? (step (State.reset.withFetchWord 32 0x04300007)) 3 = some [7] := by
  decide +kernel
theorem test_place_clrerr :
    status? (step (({ State.reset with err := some .divZero } : State).withFetchWord 32 0x07000000)) = some 0 := by
  decide +kernel
theorem test_decode_table_word : decodeTableWord 32 0x13412500 = some (.div 4 1 2 5) := by decide +kernel

/-! ### Witnesses: states and operands that meet the hypotheses of each statement -/

theorem resetWith_inv (m : Nat) (h1 : 20 ≤ m) (h2 : m ≤ 1024) : (State.resetWith m).Inv where
  cap_range := ⟨h1, h2⟩
  regs_ok i := by rw [reg_resetWith]; exact BigReg.zero_ok m
  flags_legal := ⟨rfl, rfl, ⟨rfl, rfl, rfl⟩, rfl⟩
  pending := by simp
  rejected := by simp
  idle_wait := by simp

theorem load_inv (xs : List (RegIx × List Word)) (h : ∀ x ∈ xs, x.2.length ≤ 20) : (load xs).Inv := by
  have key : ∀ (xs : List (RegIx × List Word)) (s : State), s.Inv → s.maxLimbs = 20 →
      (∀ x ∈ xs, x.2.length ≤ 20) → (xs.foldl (fun s x => s.writeReg x.1 (limbsVal x.2)) s).Inv := by
    intro xs
    induction xs with
    | nil => intro s hs _ _; exact hs
    | cons x xs ih =>
      intro s hs hm h
      refine ih _ (hs.writeReg _ _ ?_) hm fun y hy => h y (List.mem_cons_of_mem _ hy)
      rw [hm]
      exact (nlimbs_limbsVal_le _).trans (h x List.mem_cons_self)
  exact key xs _ (resetWith_inv 20 (by decide) (by decide)) rfl h

theorem start_inv : (load [(1, [5]), (2, [7])]).Inv := load_inv _ (by decide)

theorem idle_inv (e : HostEvent) : (idle e).Inv :=
  ⟨start_inv.cap_range, start_inv.regs_ok, start_inv.flags_legal, start_inv.pending, start_inv.rejected,
    start_inv.idle_wait⟩

/-- A pending word that is not CLRERR's meets the invariant. -/
theorem pend_inv {s : State} (h : s.Inv) (w : Word) (n : Nat) (es : List HostEvent) (he : s.err = none)
    (hr : s.rej = false) (hw : w ≠ 0x07000000) :
    ({ s with pend := some w, wait := n, host := es } : State).Inv :=
  ⟨h.cap_range, h.regs_ok, h.flags_legal, fun _ hv => ⟨he, hr, by cases hv; exact hw⟩, h.rejected,
    fun hv => by cases hv⟩

theorem busy_inv (e : HostEvent) : (busy e).Inv := pend_inv start_inv _ 3 [e] rfl rfl (by decide)

theorem pending_inv (w : Word) (hw : w ≠ 0x07000000) : (pending w).Inv :=
  pend_inv start_inv w 0 [] rfl rfl hw

/-- A command that some state follows. -/
theorem next_of_isSome {r : Result} (h : (next? r).isSome = true) : ∃ t, r = .next t := by
  cases r <;> simp_all [next?]

theorem idle_turn (e : HostEvent) : (idle e).HostTurn e [] := ⟨rfl, rfl⟩
theorem busy_turn (e : HostEvent) : (busy e).HostTurn e [] := ⟨rfl, rfl⟩

theorem witness_DecodeInvertsEncode : Instr.wellFormed (.const 15 255) = true := by decide

theorem witness_EncodeInvertsDecode : decode 0x15FFFF00 = .ok (.mulmod 15 15 15 15) := by decide +kernel

-- Every range of R305 at both ends, and a must-be-zero bit at the top and the bottom of a field.
theorem witness_IllegalWordsRaiseIllegalOp :
    (pending 0x00FFFFFF).pend = some 0x00FFFFFF ∧ (pending 0x00FFFFFF).completes = true
    ∧ ([0x00000000, 0x00FFFFFF] : List Word).all (fun w => w.toNat / 2 ^ 24 == 0)
    ∧ ([0x08000000, 0x0FFFFFFF] : List Word).all
        (fun w => decide (0x08 ≤ w.toNat / 2 ^ 24 ∧ w.toNat / 2 ^ 24 ≤ 0x0F))
    ∧ ([0x16000000, 0x1FFFFFFF] : List Word).all
        (fun w => decide (0x16 ≤ w.toNat / 2 ^ 24 ∧ w.toNat / 2 ^ 24 ≤ 0x1F))
    ∧ ([0x22000000, 0xFFFFFFFF] : List Word).all
        (fun w => decide (0x22 ≤ w.toNat / 2 ^ 24 ∧ w.toNat / 2 ^ 24 ≤ 0xFF))
    ∧ ([0x01000001, 0x01800000] : List Word).all
        (fun w => decide (w.toNat / 2 ^ 24 = 0x01 ∧ w &&& (0xFFFFFFFF &&& 0x00FFFFFF) ≠ 0))
    ∧ ([0x20100000, 0x20800001] : List Word).all
        (fun w => decide (w.toNat / 2 ^ 24 = 0x20 ∧ w &&& (0xFFF00FFF &&& 0x00FFFFFF) ≠ 0)) := by
  decide +kernel

theorem test_illegal_words : ([0x00000000, 0x08000000, 0x0FFFFFFF, 0x16000000, 0x1FFFFFFF,
    0x22000000, 0xFFFFFFFF, 0x01000001, 0x20800000] : List Word).all
      (fun w => status? (step (pending w)) == some 0x100) = true := by
  decide +kernel

theorem witness_CompletionStepRunsDecodedCommand :
    (pending 0x20012000).pend = some 0x20012000
    ∧ ((pending 0x20012000).wait = 0 ∨ (pending 0x20012000).host = [])
    ∧ decode 0x20012000 = .ok (.cmp 1 2) ∧ ∃ t, exec (.cmp 1 2) (pending 0x20012000) = .next t :=
  ⟨rfl, .inl rfl, by decide +kernel, _, rfl⟩

-- A host turn while busy and while idle, with and without an error, and a completion of each kind of word.
theorem witness_CommandPathIsRule605 :
    ((busy (.write 4 0 0x07000000)).HostTurn (.write 4 0 0x07000000) []
      ∧ (busy (.write 4 0 0x07000000)).pend ≠ none)
    ∧ ((idle (.write 4 0 0x07000000)).HostTurn (.write 4 0 0x07000000) []
      ∧ (idle (.write 4 0 0x07000000)).pend = none)
    ∧ (({ idle (.write 4 0 0x07000001) with ovr := true } : State).HostTurn (.write 4 0 0x07000001) []
      ∧ (0x07000001 : Word) ≠ 0x07000000)
    ∧ ((idle (.write 4 0 0x06FFFFFF)).err = none ∧ (idle (.write 4 0 0x06FFFFFF)).ovr = false)
    ∧ ((pending 0x07000001).completes = true ∧ ∃ r, decode 0x07000001 = .error r)
    ∧ ((pending 0x10312000).completes = true ∧ decode 0x10312000 = .ok (.add 3 1 2)) :=
  ⟨⟨busy_turn _, by simp [busy]⟩, ⟨idle_turn _, rfl⟩, ⟨⟨rfl, rfl⟩, by decide⟩, ⟨rfl, rfl⟩,
    ⟨rfl, .mustBeZeroSet 0x07, by decide +kernel⟩, rfl, by decide +kernel⟩

-- The first and last limb that overrun (MAX_LIMBS = 20), the first that does not, and the sticky OVR.
theorem witness_OverrunWhileBusy :
    ((busy (.write 4 0x10000 9)).Inv ∧ (busy (.write 4 0x10000 9)).HostTurn (.write 4 0x10000 9) []
      ∧ (0x10000 : Offset).toNat = 0x1000 + 0x1000 * 15 + 4 * 0)
    ∧ ((busy (.write 4 0x1004C 9)).HostTurn (.write 4 0x1004C 9) []
      ∧ (0x1004C : Offset).toNat = 0x1000 + 0x1000 * 15 + 4 * 19
      ∧ (0x10050 : Offset).toNat = 0x1000 + 0x1000 * 15 + 4 * 20
      ∧ (busy (.write 4 0x1004C 9)).maxLimbs = 20)
    ∧ (∃ t, step { busy .poll with ovr := true } = .next t)
    ∧ ({ idle (.write 4 0 0) with ovr := true } : State).HostTurn (.write 4 0 0) [] :=
  ⟨⟨busy_inv _, busy_turn _, by decide⟩, ⟨busy_turn _, by decide, by decide, rfl⟩, ⟨_, rfl⟩, ⟨rfl, rfl⟩⟩

/-- The start state with an error pending and a command rejected. -/
def failed (e : HostEvent) : State := { idle e with err := some .divZero, rej := true }

theorem failed_inv (e : HostEvent) : (failed e).Inv where
  cap_range := start_inv.cap_range
  regs_ok := start_inv.regs_ok
  flags_legal := start_inv.flags_legal
  pending _ h := by cases h
  rejected _ := .inl rfl
  idle_wait := start_inv.idle_wait

theorem witness_RejectedCommandSetsOnlyRej :
    (failed (.write 4 0 0x01000000)).Inv ∧ (failed (.write 4 0 0x01000000)).pend = none
    ∧ (failed (.write 4 0 0x01000000)).err ≠ none ∧ (failed (.write 4 0 0x01000000)).rej = true
    ∧ (failed (.write 4 0 0x01000000)).HostTurn (.write 4 0 0x01000000) []
    ∧ ∃ t, step (failed (.write 4 0 0x01000000)) = .next t :=
  ⟨failed_inv _, rfl, by simp [failed], rfl, ⟨rfl, rfl⟩, _, rfl⟩

theorem witness_ErrorStateIsSticky :
    (failed .reset).Inv ∧ (failed .reset).ClearingEvent ∧ (failed (.write 4 0 0x07000000)).ClearingEvent
    ∧ ∃ t, step (failed .poll) = .next t :=
  ⟨failed_inv _, ⟨[], .inl ⟨rfl, rfl⟩⟩, ⟨[], .inr ⟨rfl, rfl, rfl⟩⟩, _, rfl⟩

theorem witness_PendingCommandIsShielded :
    (busy (.write 4 8 1)).pend = some 0x10312000 ∧ (busy (.write 4 8 1)).completes = false
    ∧ (∀ rest, (busy (.write 4 8 1)).host ≠ .reset :: rest) ∧ ∃ t, step (busy (.write 4 8 1)) = .next t :=
  ⟨rfl, rfl, fun _ h => by simp [busy] at h, _, rfl⟩

theorem witness_PendingCommandCompletes :
    (busy .poll).pend = some 0x10312000 ∧ ∀ e ∈ (busy .poll).host, e.legal = true :=
  ⟨rfl, by simp [busy, HostEvent.legal]⟩

theorem witness_ResetEventRestoresEverything : (busy .reset).HostTurn .reset [] := busy_turn _

theorem witness_ResetMeetsTheInvariant : 20 ≤ 20 ∧ 1024 ≤ 1024 := by decide

theorem witness_StepKeepsTheInvariant :
    (pending 0x13412500).Inv ∧ ∃ t, step (pending 0x13412500) = .next t :=
  ⟨pending_inv _ (by decide), next_of_isSome (by decide +kernel)⟩

theorem witness_CapIsConstant :
    (busy (.read 4 0x010)).HostTurn (.read 4 0x010) [] ∧ (busy (.write 4 0x010 7)).HostTurn (.write 4 0x010 7) []
    ∧ ∃ t, step (busy (.read 4 0x010)) = .next t := ⟨busy_turn _, busy_turn _, _, rfl⟩

-- FLAGS change by a CMP, by a TSTZ and by a reset.
theorem witness_FlagsChangeOnlyByCmpAndTstz :
    flags? (step (pending 0x20012000)) = some 0x0A ∧ flags? (step (pending 0x21030000)) = some 0x20
    ∧ (pending 0x20012000).flags = Flags.zero
    ∧ flags? (step { idle .reset with flags := { Flags.zero with z := true } }) = some 0 := by decide +kernel

theorem witness_DataIsWrittenOnlyByTheHost :
    (idle (.write 4 8 3)).HostTurn (.write 4 0x008 3) [] ∧ (idle (.write 4 8 3)).pend = none
    ∧ (busy (.write 4 8 3)).HostTurn (.write 4 0x008 3) [] ∧ (busy (.write 4 8 3)).pend ≠ none
    ∧ (busy (.read 4 8)).HostTurn (.read 4 0x008) [] ∧ (∃ t, step (busy (.read 4 8)) = .next t)
    ∧ (∃ t, exec (.setw 3) (idle .poll) = .next t) ∧ (idle .poll).Inv
    ∧ (idle .poll).data.toNat ≤ (idle .poll).maxLimbs :=
  ⟨idle_turn _, rfl, busy_turn _, by simp [busy], busy_turn _, ⟨_, rfl⟩, ⟨_, rfl⟩, idle_inv _,
    by decide +kernel⟩

theorem witness_IllegalAccessIsBusError :
    (2 ≠ 4 ∧ (idle (.read 2 8)).HostTurn (.read 2 8) []) ∧ ((0x006 : Offset).toNat % 4 ≠ 0
      ∧ (idle (.read 4 6)).HostTurn (.read 4 6) [])
    ∧ ((0x1FFFC : Offset).toNat % 4 = 0 ∧ (idle (.write 4 0x1FFFC 0)).HostTurn (.write 4 0x1FFFC 0) []) := by
  exact ⟨⟨by decide, idle_turn _⟩, ⟨by decide, idle_turn _⟩, by decide, idle_turn _⟩

-- Each range of the map at its ends, on an idle block.
theorem witness_IdleReadsFollowTheRegisterMap :
    (idle (.read 4 0x07C)).pend = none ∧ (idle (.read 4 0x07C)).HostTurn (.read 4 0x07C) []
    ∧ (0x040 : Offset).toNat = 0x040 + 4 * (0 : RegIx).val
    ∧ (0x07C : Offset).toNat = 0x040 + 4 * (15 : RegIx).val
    ∧ (0x1000 : Offset).toNat = 0x1000 + 0x1000 * (0 : RegIx).val + 4 * 0
    ∧ (0x1004C : Offset).toNat = 0x1000 + 0x1000 * (15 : RegIx).val + 4 * 19
    ∧ (0x018 : Offset).toNat = 0x018 ∧ (0x03C : Offset).toNat = 0x03C ∧ (0x080 : Offset).toNat = 0x080
    ∧ (0xFFC : Offset).toNat = 0xFFC ∧ (0x11000 : Offset).toNat = 0x11000
    ∧ (0x1FFFC : Offset).toNat % 4 = 0 :=
  ⟨rfl, idle_turn _, by decide⟩

-- k = 0, k = MAX_LIMBS - 1, k = MAX_LIMBS, k = 1023, idle and busy.
theorem witness_LimbWindowRead :
    (0x2000 : Offset).toNat = 0x1000 + 0x1000 * (1 : RegIx).val + 4 * 0
    ∧ (0x204C : Offset).toNat = 0x1000 + 0x1000 * (1 : RegIx).val + 4 * 19
    ∧ (0x2050 : Offset).toNat = 0x1000 + 0x1000 * (1 : RegIx).val + 4 * 20
    ∧ (0x2FFC : Offset).toNat = 0x1000 + 0x1000 * (1 : RegIx).val + 4 * 1023
    ∧ (idle (.read 4 0x204C)).HostTurn (.read 4 0x204C) [] ∧ (idle (.read 4 0x204C)).pend = none
    ∧ (idle (.read 4 0x204C)).maxLimbs = 20
    ∧ (busy (.read 4 0x2000)).HostTurn (.read 4 0x2000) [] ∧ (busy (.read 4 0x2000)).pend ≠ none :=
  ⟨by decide, by decide, by decide, by decide, idle_turn _, rfl, rfl, busy_turn _, by simp [busy]⟩

theorem witness_LimbWindowWrite :
    (idle (.write 4 0x204C 9)).Inv ∧ (busy (.write 4 0x204C 9)).Inv
    ∧ (0x204C : Offset).toNat = 0x1000 + 0x1000 * (1 : RegIx).val + 4 * 19
    ∧ (0x2050 : Offset).toNat = 0x1000 + 0x1000 * (1 : RegIx).val + 4 * 20
    ∧ (idle (.write 4 0x204C 9)).HostTurn (.write 4 0x204C 9) []
    ∧ (idle (.write 4 0x2050 9)).HostTurn (.write 4 0x2050 9) []
    ∧ (busy (.write 4 0x204C 9)).HostTurn (.write 4 0x204C 9) []
    ∧ ((idle .poll).writeLimb 3 0 1).dirty 3 = true
    ∧ ∃ t, step ((idle .poll).writeLimb 3 0 1) = .next t :=
  ⟨idle_inv _, busy_inv _, by decide, by decide, idle_turn _, idle_turn _, busy_turn _,
    by decide +kernel, next_of_isSome (by decide +kernel)⟩

theorem witness_ReservedAndReadOnlyOffsets :
    (busy (.read 4 0x018)).HostTurn (.read 4 0x018) [] ∧ (busy (.write 4 0xFFC 1)).HostTurn (.write 4 0xFFC 1) []
    ∧ (busy (.write 4 0x07C 1)).HostTurn (.write 4 0x07C 1) []
    ∧ (0x2050 : Offset).toNat = 0x1000 + 0x1000 * 1 + 4 * 20 ∧ (0x07C : Offset).toNat ≤ 0x07C :=
  ⟨busy_turn _, busy_turn _, busy_turn _, by decide +kernel⟩

theorem witness_ReadsWhileBusy :
    (busy (.read 4 0x00C)).pend ≠ none ∧ (busy (.read 4 0x00C)).HostTurn (.read 4 0x00C) []
    ∧ (0x00C : Offset).toNat = 0x00C ∧ (0x07C : Offset).toNat = 0x040 + 4 * (15 : RegIx).val
    ∧ (0x204C : Offset).toNat = 0x1000 + 0x1000 * 1 + 4 * 19
    ∧ (0x2050 : Offset).toNat = 0x1000 + 0x1000 * 1 + 4 * 20 ∧ (0x11000 : Offset).toNat % 4 = 0 :=
  ⟨by simp [busy], busy_turn _, by decide⟩

theorem witness_DirtyWordBits :
    (idle (.read 4 0x014)).pend = none ∧ (idle (.read 4 0x014)).HostTurn (.read 4 0x014) []
    ∧ (busy (.write 4 0x014 1)).HostTurn (.write 4 0x014 1) [] ∧ 16 ≤ 16 :=
  ⟨rfl, idle_turn _, busy_turn _, le_rfl⟩

theorem witness_LenWordBits :
    (busy (.write 4 0x07C 5)).Inv ∧ (0x07C : Offset).toNat = 0x040 + 4 * (15 : RegIx).val
    ∧ (busy (.write 4 0x07C 5)).HostTurn (.write 4 0x07C 5) []
    ∧ (idle (.read 4 0x07C)).pend = none ∧ (idle (.read 4 0x07C)).HostTurn (.read 4 0x07C) [] :=
  ⟨busy_inv _, by decide, busy_turn _, rfl, idle_turn _⟩

theorem witness_WindowBytesAreTheValue :
    (idle .poll).Inv ∧ (idle .poll).dirty 1 = false ∧ 79 < 4 * (idle .poll).maxLimbs :=
  ⟨idle_inv _, by decide +kernel⟩

theorem witness_HostAddressesReachTheirOffset :
    0x40000 % 4096 = 0 ∧ offsetOf 0x40000 0x40000 = some 0 ∧ offsetOf 0x40000 0x5FFFF = some 0x1FFFF
    ∧ offsetOf 0x40000 0x60000 = none := by decide +kernel

theorem witness_ValueIsTheWeightedSumOfLimbs : (idle .poll).Inv ∧ (idle .poll).len 3 = 0 :=
  ⟨idle_inv _, by decide +kernel⟩

theorem witness_NopOnlyClearsBusy :
    ((pending 0x01000000).pend = some 0x01000000 ∧ (pending 0x01000000).completes = true)
    ∧ ((idle (.write 4 0 0x01000000)).HostTurn (.write 4 0 0x01000000) []
      ∧ (idle (.write 4 0 0x01000000)).pend = none)
    ∧ (0x01000001 : Word).toNat / 2 ^ 24 = 1 ∧ (pending 0x01000001).completes = true :=
  ⟨⟨rfl, rfl⟩, ⟨idle_turn _, rfl⟩, by decide, rfl⟩

theorem witness_ClrerrClearsErrorState :
    (idle (.write 4 0 0x07000000)).HostTurn (.write 4 0 0x07000000) []
    ∧ (busy (.write 4 0 0x07000000)).HostTurn (.write 4 0 0x07000000) []
    ∧ (0x07000001 : Word).toNat / 2 ^ 24 = 7 ∧ (failed (.write 4 0 0x07000001)).HostTurn (.write 4 0 0x07000001) []
    ∧ (pending 0x07000001).completes = true := ⟨idle_turn _, busy_turn _, by decide, ⟨rfl, rfl⟩, rfl⟩

/-- `r1 = [7, 8]`, `r2 = [9]`, `r3` dirty, `r4 = 2^639`, DATA as given. -/
def operands (data : Word) : State :=
  { (load [(1, [7, 8]), (2, [9]), (4, List.replicate 19 0 ++ [0x80000000])]).writeLimb 3 0 1 with data := data }

theorem operands_inv (data : Word) : (operands data).Inv :=
  have h := (load_inv [(1, [7, 8]), (2, [9]), (4, List.replicate 19 0 ++ [0x80000000])]
    (by decide)).writeLimb 3 0 1
  ⟨h.cap_range, h.regs_ok, h.flags_legal, h.pending, h.rejected, h.idle_wait⟩

-- A clean and a dirty source: COPY, CMP, TSTZ.
theorem witness_CopyWritesTheSourceValue :
    (operands 0).Inv ∧ (operands 0).dirty 3 = true ∧ (operands 0).dirty 1 = false :=
  ⟨operands_inv 0, by decide +kernel⟩
theorem witness_CmpWritesTheOrder :
    (operands 0).Inv ∧ ((operands 0).dirty 1 = true ∨ (operands 0).dirty 3 = true)
    ∧ (operands 0).dirty 1 = false ∧ (operands 0).dirty 2 = false :=
  ⟨operands_inv 0, .inr (by decide +kernel), by decide +kernel⟩
theorem witness_TstzWritesTheZeroTest :
    (operands 0).Inv ∧ (operands 0).dirty 3 = true ∧ (operands 0).dirty 5 = false :=
  ⟨operands_inv 0, by decide +kernel⟩

-- k = 10 and k = 11; n = MAX_LIMBS and n = MAX_LIMBS + 1.
theorem witness_ConstWritesRomValue : (operands 0).Inv ∧ 10 < 11 ∧ 10 ≤ 10 :=
  ⟨operands_inv 0, by decide +kernel⟩
theorem witness_SetwWritesData : (operands 0xFFFFFFFF).Inv := operands_inv _
theorem witness_SetlenNormalisesRegister :
    ((operands 21).Inv ∧ (operands 21).maxLimbs < (operands 21).data.toNat)
    ∧ (operands 20).Inv ∧ (operands 20).data.toNat ≤ (operands 20).maxLimbs :=
  ⟨⟨operands_inv _, by decide +kernel⟩, operands_inv _, by decide +kernel⟩

-- A dirty source; a sum that needs limb 20 and one that does not.
theorem witness_AddWritesTheSum :
    (operands 0).Inv ∧ ((operands 0).dirty 3 = true ∨ (operands 0).dirty 1 = true)
    ∧ (operands 0).dirty 4 = false
    ∧ 2 ^ (32 * (operands 0).maxLimbs) ≤ (operands 0).val 4 + (operands 0).val 4
    ∧ (operands 0).dirty 1 = false
    ∧ (operands 0).val 4 + (operands 0).val 1 < 2 ^ (32 * (operands 0).maxLimbs) :=
  ⟨operands_inv 0, .inl (by decide +kernel), by decide +kernel⟩
theorem witness_SubWritesTheDifference :
    (operands 0).Inv ∧ ((operands 0).dirty 3 = true ∨ (operands 0).dirty 1 = true)
    ∧ (operands 0).dirty 1 = false ∧ (operands 0).dirty 2 = false
    ∧ (operands 0).val 2 < (operands 0).val 1 ∧ (operands 0).val 1 ≤ (operands 0).val 1 :=
  ⟨operands_inv 0, .inl (by decide +kernel), by decide +kernel⟩
theorem witness_MulWritesTheProduct :
    (operands 0).Inv ∧ ((operands 0).dirty 3 = true ∨ (operands 0).dirty 1 = true)
    ∧ (operands 0).dirty 1 = false ∧ (operands 0).dirty 2 = false ∧ (operands 0).dirty 4 = false
    ∧ (operands 0).maxLimbs < nlimbs ((operands 0).val 4 * (operands 0).val 2)
    ∧ nlimbs ((operands 0).val 1 * (operands 0).val 2) ≤ (operands 0).maxLimbs :=
  ⟨operands_inv 0, .inl (by decide +kernel), by decide +kernel⟩

-- DIV, MOD, MULMOD: a dirty source, a zero divisor (r5) and a divisor that is not zero (r2).
theorem witness_DivWritesQuotientAndRemainder :
    (operands 0).Inv ∧ ((operands 0).dirty 3 = true ∨ (operands 0).dirty 1 = true) ∧ (6 : RegIx) ≠ 7
    ∧ (operands 0).dirty 1 = false ∧ (operands 0).dirty 2 = false ∧ (operands 0).dirty 5 = false
    ∧ (operands 0).val 5 = 0 ∧ (operands 0).val 2 ≠ 0 :=
  ⟨operands_inv 0, .inl (by decide +kernel), by decide +kernel⟩
theorem witness_ModWritesTheRemainder :
    (operands 0).Inv ∧ (operands 0).dirty 3 = true ∧ (operands 0).dirty 1 = false
    ∧ (operands 0).dirty 2 = false ∧ (operands 0).dirty 5 = false
    ∧ (operands 0).val 5 = 0 ∧ (operands 0).val 2 ≠ 0 :=
  ⟨operands_inv 0, by decide +kernel⟩
theorem witness_MulmodWritesTheReducedProduct :
    (operands 0).Inv ∧ (operands 0).dirty 3 = true ∧ (operands 0).dirty 1 = false
    ∧ (operands 0).dirty 4 = false ∧ (operands 0).dirty 2 = false ∧ (operands 0).dirty 5 = false
    ∧ (operands 0).val 5 = 0 ∧ (operands 0).val 2 ≠ 0 :=
  ⟨operands_inv 0, by decide +kernel⟩

theorem witness_DivisionIdentity :
    (operands 0).Inv ∧ (6 : RegIx) ≠ 7 ∧ (operands 0).dirty 4 = false ∧ (operands 0).dirty 1 = false
    ∧ 0 < (operands 0).val 1 :=
  ⟨operands_inv 0, by decide +kernel⟩
theorem witness_SubUndoesAdd :
    (operands 0).Inv ∧ (operands 0).dirty 1 = false ∧ (operands 0).dirty 2 = false ∧ (1 : RegIx) ≠ 2
    ∧ (operands 0).val 1 + (operands 0).val 2 < 2 ^ (32 * (operands 0).maxLimbs) :=
  ⟨operands_inv 0, by decide +kernel⟩
theorem witness_AddAndMulCommute : (operands 0).Inv := operands_inv 0

theorem witness_RemainderCommandsAgree :
    (operands 0).Inv ∧ (6 : RegIx) ≠ 7 ∧ (operands 0).dirty 1 = false ∧ (operands 0).dirty 2 = false
    ∧ (operands 0).val 2 ≠ 0 ∧ (∃ t, exec (.div 6 1 2 7) (operands 0) = .next t)
    ∧ (∃ t, exec (.mod 8 1 2) (operands 0) = .next t)
    ∧ nlimbs ((operands 0).val 1 * (operands 0).val 1) ≤ (operands 0).maxLimbs
    ∧ (∃ t u, exec (.mul 6 1 1) (operands 0) = .next t ∧ exec (.mod 6 6 2) t = .next u)
    ∧ ∃ t, exec (.mulmod 6 1 1 2) (operands 0) = .next t := by
  refine ⟨operands_inv 0, by decide, by decide +kernel, by decide +kernel, by decide +kernel,
    next_of_isSome (by decide +kernel), next_of_isSome (by decide +kernel), by decide +kernel, ?_,
    next_of_isSome (by decide +kernel)⟩
  obtain ⟨t, ht⟩ := next_of_isSome (r := exec (.mul 6 1 1) (operands 0)) (by decide +kernel)
  refine ⟨t, ?_⟩
  have h : ∃ u, exec (.mod 6 6 2) t = .next u := by
    simp only [exec, execMod, raise]
    (repeat' split) <;> exact ⟨_, rfl⟩
  exact h.imp fun u hu => ⟨ht, hu⟩

-- The frame's error clause (a DIV by the zero r5) and its other clauses (an ADD).
theorem witness_CommandFrame :
    (∃ t, exec (.add 6 1 2) (operands 0) = .next t)
    ∧ status? (exec (.div 6 1 5 7) (operands 0)) = some 0x400 ∧ (operands 0).err = none :=
  ⟨next_of_isSome (by decide +kernel), by decide +kernel⟩

-- Two states that agree on what ADD r6, r1, r2 reads but on neither r9 nor FLAGS, and two that agree on FLAGS.
theorem witness_CommandReadsOnlyItsSources :
    let s := operands 0
    let u : State := { s.writeReg 9 5 with flags := { Flags.zero with z := true } }
    ((∀ r ∈ sources (.add 6 1 2), s.reg r = u.reg r)
      ∧ s.data = u.data ∧ s.maxLimbs = u.maxLimbs ∧ s.err = none ∧ u.err = none ∧ s.flags ≠ u.flags
      ∧ s.reg 9 ≠ u.reg 9 ∧ s.flags = (s.writeReg 9 5).flags)
    ∧ (∃ t, exec (.add 6 1 2) s = .next t ∧ t.err = none) ∧ ∃ t, exec (.add 6 1 2) u = .next t := by
  refine ⟨by decide +kernel, ?_, next_of_isSome (by decide +kernel)⟩
  obtain ⟨t, ht⟩ := next_of_isSome (r := exec (.add 6 1 2) (operands 0)) (by decide +kernel)
  refine ⟨t, ht, ?_⟩
  have h : (next? (exec (.add 6 1 2) (operands 0))).map (fun t => t.err) = some none := by decide +kernel
  rw [ht] at h
  simpa [next?] using h

-- An error first in the order, and a word that raises none.
theorem witness_ErrorsFollowTheTableAndPriority :
    (pending 0x13112100).Inv ∧ (pending 0x13112100).err = none
    ∧ WordRaises (pending 0x13112100) 0x13112100 .badOperand
    ∧ (∀ e, WordRaises (pending 0x13112100) 0x13112100 e → ErrCode.badOperand.rank ≤ e.rank)
    ∧ (pending 0x02100000).Inv ∧ ∀ e, ¬WordRaises (pending 0x02100000) 0x02100000 e := by
  have h1 : decode 0x13112100 = .ok (.div 1 1 2 1) := by decide +kernel
  have h2 : decode 0x02100000 = .ok (.clr 1) := by decide +kernel
  simp only [WordRaises, h1, h2]
  refine ⟨pending_inv _ (by decide), rfl, rfl, ?_, pending_inv _ (by decide), ?_⟩
  · intro e h; cases e <;> first | exact h.elim | decide
  · intro e; cases e <;> exact id

-- The last word of the block, and one past its end, which reaches no event (log entry 16).
theorem test_ldbig_end : limbWrites 0x1FFFC [1, 2] = [.write 4 0x1FFFC 1] := by decide +kernel

-- LDBIG r1, [7, 8] about to run.
theorem witness_LdbigLoadsTheValue :
    let s : State := { load [] with host := (Pseudo.ldbig 1 [7, 8]).expand }
    s.Inv ∧ s.trustworthy = true ∧ [7, 8].length ≤ s.maxLimbs := by
  have h := load_inv [] (by simp)
  exact ⟨⟨h.cap_range, h.regs_ok, h.flags_legal, h.pending, h.rejected, h.idle_wait⟩, rfl, by decide +kernel⟩

end Sys2Proof.Tests
end

/-! The base case of the invariant: what reset leaves (10_state.md R123) satisfies it, for every legal
`MAX_LIMBS` (00_scope.md R8). -/

namespace Sys2Proof.Machine

theorem Flags.zero_legal : Flags.zero.Legal where
  le_iff := rfl
  ge_iff := rfl
  one_of := ⟨rfl, rfl, rfl⟩
  zero_test := rfl

/-- Every register is a clean zero, and nothing is pending or rejected; the bounds on `m` serve the
range of `MAX_LIMBS` alone. -/
theorem State.resetWith_inv {m : Nat} (hlo : 20 ≤ m) (hhi : m ≤ 1024) : (State.resetWith m).Inv where
  cap_range := ⟨hlo, hhi⟩
  regs_ok i := by
    rw [reg_resetWith]
    exact BigReg.zero_ok m
  flags_legal := Flags.zero_legal
  pending w hw := by simp at hw
  rejected h := by simp at h
  idle_wait _ := resetWith_wait m

/-- Settles O16: `State.reset` is the reset state of the default `MAX_LIMBS`, which lies in the legal range. -/
theorem resetMeetsTheInvariant : Obligations.ResetMeetsTheInvariant :=
  have hdefault : 20 ≤ Config.defaultMaxLimbs ∧ Config.defaultMaxLimbs ≤ 1024 := by decide
  ⟨State.resetWith_inv hdefault.1 hdefault.2, fun _ hlo hhi => State.resetWith_inv hlo hhi⟩

end Sys2Proof.Machine

/-! The layer the statements of 10_state.md share: what a host event does to the state, one case per effect, what a
command leaves unchanged, and the steps of the host at the read-only registers. -/

namespace Sys2Proof.Machine

/-! ### What a host event does -/

/-- The effects of a host event on a state from whose queue it has been taken (20_memory.md R203 to R209,
60_exceptions.md R606 to R609, 70_reset_and_hazards.md R700). -/
inductive HostEffect (s : State) : HostEvent → State → Prop where
  /-- A read, a WAIT or an ignored write: an answer, a free value drawn or the WAIT put back. -/
  | answered (e : HostEvent) (b : Option Reply) (d : Nat) (q : List HostEvent) :
    HostEffect s e { s with bus := b, draws := d, host := q }
  | reset : HostEffect s .reset (resetBlock s)
  | overrun (e : HostEvent) : s.busy = true → HostEffect s e { overrun s with bus := some .done }
  | cleared : s.pend = none → HostEffect s (.write 4 0 clrerrWord) { clearErrors s with bus := some .done }
  | rejected (e : HostEvent) : s.pend = none → (s.err.isSome = true ∨ s.ovr = true) →
    HostEffect s e { reject s with bus := some .done }
  | accepted (w : Word) : s.pend = none → w ≠ clrerrWord → s.err = none → s.ovr = false →
    HostEffect s (.write 4 0 w) { accept w s with bus := some .done }
  | data (v : Word) : s.pend = none → HostEffect s (.write 4 8 v) { s with data := v, bus := some .done }
  | limb (e : HostEvent) (i : RegIx) (k : Nat) (v : Word) : s.pend = none →
    HostEffect s e { s.writeLimb i k v with bus := some .done }

theorem State.busy_eq_false_iff (s : State) : s.busy = false ↔ s.pend = none := by
  simp [State.busy]

theorem eq_four_of_legalAccess {width : Nat} {off : Offset} (h : legalAccess width off = true) :
    width = 4 := by
  simp only [legalAccess, Bool.and_eq_true, beq_iff_eq] at h
  exact h.1

theorem target_eq_data {m : Nat} {off : Offset} (h : target m off = .data) : off = 8 := by
  by_cases h8 : off.toNat = 8
  · exact BitVec.eq_of_toNat_eq h8
  · simp only [target, if_neg h8] at h
    (repeat' split at h) <;> cases h

/-- A write to CMD has one of the effects of a host event (60_exceptions.md R605). -/
theorem issue_effect {w : Word} {s t : State} (h : issue w s = .next t) :
    HostEffect s (.write 4 0 w) { t with bus := some .done } := by
  rcases issue_next_cases h with ⟨hb, rfl⟩ | ⟨hb, rfl, rfl⟩ | ⟨hb, -, he, rfl⟩ | ⟨hb, hw, he, ho, rfl⟩
  · exact .overrun _ hb
  · exact .cleared (s.busy_eq_false_iff.1 hb)
  · exact .rejected _ (s.busy_eq_false_iff.1 hb) (by simpa using he)
  · exact .accepted w (s.busy_eq_false_iff.1 hb) hw he ho

theorem hostEvent_effect {e : HostEvent} {s t : State} (h : hostEvent e s = .next t) : HostEffect s e t := by
  rcases hostEvent_next_cases h with
    ⟨b, d, q, rfl, -⟩ | ⟨rfl, rfl⟩ | ⟨width, off, v, u, rfl, hlegal, hu, rfl⟩
  · exact .answered e b d q
  · exact .reset
  · obtain rfl := eq_four_of_legalAccess hlegal
    rcases writeTarget_next_cases hu with
      ⟨hg, hi⟩ | ⟨hb, rfl⟩ | ⟨hg, hb, rfl⟩ | ⟨i, k, -, hb, rfl⟩ | rfl
    · obtain rfl := target_eq_cmd hg
      exact issue_effect hi
    · exact .overrun _ hb
    · obtain rfl := target_eq_data hg
      exact .data v (s.busy_eq_false_iff.1 hb)
    · exact .limb _ i k v (s.busy_eq_false_iff.1 hb)
    · exact .answered _ _ _ _

theorem HostEffect.maxLimbs_eq {s t : State} {e : HostEvent} (h : HostEffect s e t) :
    t.maxLimbs = s.maxLimbs := by
  cases h <;> rfl

theorem HostEffect.flags_eq {s t : State} {e : HostEvent} (h : HostEffect s e t) (hr : e ≠ .reset) :
    t.flags = s.flags := by
  cases h with
  | reset => exact absurd rfl hr
  | _ => rfl

/-! ### What a command does and leaves unchanged (10_state.md R107, 60_exceptions.md R603) -/

/-- The effects of a command on a state: `exec_next_cases`, one case per effect. -/
inductive CommandEffect (s : State) : Instr → State → Prop where
  | raised (i : Instr) (e : ErrCode) : CommandEffect s i { s with err := some e }
  | cleared : CommandEffect s .clrerr (clearErrors s)
  | compared (a b : RegIx) (c : Ordering) :
    CommandEffect s (.cmp a b) { s with flags := s.flags.withComparison c }
  | tested (a : RegIx) (z : Bool) : CommandEffect s (.tstz a) { s with flags := s.flags.withZeroTest z }
  | nop : CommandEffect s .nop s
  | wrote (i : Instr) (d : RegIx) (r : BigReg) : destinations i = [d] → CommandEffect s i (s.setReg d r)
  | wroteTwo (i : Instr) (d e : RegIx) (r r' : BigReg) : destinations i = [d, e] →
    CommandEffect s i ((s.setReg d r).setReg e r')

section
variable {i : Instr} {s t : State} (h : exec i s = .next t)
include h

theorem exec_effect : CommandEffect s i t := by
  rcases exec_next_cases h with ⟨e, rfl⟩ | ⟨rfl, rfl⟩ | ⟨⟨a, b, rfl⟩, c, rfl⟩ | ⟨⟨a, rfl⟩, z, rfl⟩
    | ⟨rfl, rfl⟩ | ⟨d, r, hd, rfl⟩ | ⟨d, e, r, r', hd, rfl⟩
  · exact .raised i e
  · exact .cleared
  · exact .compared a b c
  · exact .tested a z
  · exact .nop
  · exact .wrote i d r hd
  · exact .wroteTwo i d e r r' hd

theorem exec_reg_of_not_mem_destinations {r : RegIx} (hr : r ∉ destinations i) : t.reg r = s.reg r := by
  cases exec_effect h with
  | wrote _ d _ hd =>
    rw [hd, List.mem_singleton] at hr
    exact reg_setReg_ne _ _ _ _ hr
  | wroteTwo _ d e _ _ hd =>
    simp only [hd, List.mem_cons, List.not_mem_nil, or_false, not_or] at hr
    rw [reg_setReg_ne _ _ _ _ hr.2, reg_setReg_ne _ _ _ _ hr.1]
  | _ => rfl

theorem exec_maxLimbs : t.maxLimbs = s.maxLimbs := by
  cases exec_effect h <;> rfl

theorem exec_data : t.data = s.data := by
  cases exec_effect h <;> rfl

theorem exec_pend_wait_host_bus_draws :
    t.pend = s.pend ∧ t.wait = s.wait ∧ t.host = s.host ∧ t.bus = s.bus ∧ t.draws = s.draws := by
  cases exec_effect h <;> exact ⟨rfl, rfl, rfl, rfl, rfl⟩

/-- FLAGS after a command: the comparator bits of a CMP, the zero test of a TSTZ, or no change. -/
theorem exec_flags_cases :
    t.flags = s.flags ∨ ((∃ a b, i = .cmp a b) ∧ ∃ c, t.flags = s.flags.withComparison c)
      ∨ ((∃ a, i = .tstz a) ∧ ∃ z, t.flags = s.flags.withZeroTest z) := by
  cases exec_effect h with
  | compared a b c => exact .inr (.inl ⟨⟨a, b, rfl⟩, c, rfl⟩)
  | tested a z => exact .inr (.inr ⟨⟨a, rfl⟩, z, rfl⟩)
  | _ => exact .inl rfl

theorem exec_ovr_rej (hi : i ≠ .clrerr) : t.ovr = s.ovr ∧ t.rej = s.rej := by
  cases exec_effect h with
  | cleared => exact absurd rfl hi
  | _ => exact ⟨rfl, rfl⟩

/-- A command that changes ERR, CLRERR aside, has raised an error. -/
theorem exec_raised_of_err_ne (hi : i ≠ .clrerr) (he : t.err ≠ s.err) : ∃ e, t = { s with err := some e } := by
  cases exec_effect h with
  | raised _ e => exact ⟨e, rfl⟩
  | cleared => exact absurd rfl hi
  | _ => exact absurd rfl he

theorem exec_flags_legal (hs : s.flags.Legal) : t.flags.Legal := by
  cases exec_effect h with
  | compared _ _ c => exact s.flags.withComparison_legal hs c
  | tested _ z => exact s.flags.withZeroTest_legal hs z
  | _ => exact hs

end

/-- Settles O53: each clause is a fact about the seven effects of a command (`exec_effect`). -/
theorem commandFrame : Obligations.CommandFrame := by
  intro i s t h
  obtain ⟨hpend, hwait, hhost, hbus, hdraws⟩ := exec_pend_wait_host_bus_draws h
  refine ⟨fun r => exec_reg_of_not_mem_destinations h, fun hcmp htstz => ?_, exec_ovr_rej h, exec_maxLimbs h,
    exec_data h, hpend, hwait, hhost, hbus, hdraws, exec_raised_of_err_ne h⟩
  rcases exec_flags_cases h with hf | ⟨⟨a, b, hi⟩, -⟩ | ⟨⟨a, hi⟩, -⟩
  · exact hf
  · exact absurd hi (hcmp a b)
  · exact absurd hi (htstz a)

/-! ### The completion step -/

section
variable {s u : State} {w : Word}

theorem runWord_maxLimbs (h : runWord w s = .next u) : u.maxLimbs = s.maxLimbs := by
  rcases runWord_next_cases h with ⟨i, -, hx⟩ | ⟨-, rfl⟩
  · exact exec_maxLimbs hx
  · rfl

theorem runWord_data (h : runWord w s = .next u) : u.data = s.data := by
  rcases runWord_next_cases h with ⟨i, -, hx⟩ | ⟨-, rfl⟩
  · exact exec_data hx
  · rfl

theorem runWord_regs_ok (hs : s.Inv) (h : runWord w s = .next u) (r : RegIx) : (u.reg r).Ok s.maxLimbs := by
  rcases runWord_next_cases h with ⟨i, -, hx⟩ | ⟨-, rfl⟩
  · exact exec_keeps_regs hs hx r
  · exact hs.regs_ok r

theorem runWord_flags_legal (hs : s.flags.Legal) (h : runWord w s = .next u) : u.flags.Legal := by
  rcases runWord_next_cases h with ⟨i, -, hx⟩ | ⟨-, rfl⟩
  · exact exec_flags_legal hx hs
  · exact hs

/-- No word but CLRERR's writes OVR or REJ. -/
theorem runWord_ovr_rej (hw : w ≠ clrerrWord) (h : runWord w s = .next u) : u.ovr = s.ovr ∧ u.rej = s.rej := by
  rcases runWord_next_cases h with ⟨i, hd, hx⟩ | ⟨-, rfl⟩
  · exact exec_ovr_rej hx fun hi => hw (decode_eq_clrerr (hi ▸ hd))
  · exact ⟨rfl, rfl⟩

end

/-! ### The invariant -/

section
variable {s : State} (h : s.Inv)
include h

theorem State.Inv.answered (b : Option Reply) (d : Nat) (q : List HostEvent) :
    ({ s with bus := b, draws := d, host := q } : State).Inv :=
  ⟨h.cap_range, h.regs_ok, h.flags_legal, h.pending, h.rejected, h.idle_wait⟩

theorem State.Inv.taken (rest : List HostEvent) : (s.taken rest).Inv where
  cap_range := h.cap_range
  regs_ok := h.regs_ok
  flags_legal := h.flags_legal
  pending := h.pending
  rejected := h.rejected
  idle_wait hp := by rw [taken_wait, h.idle_wait hp]

theorem State.Inv.setBus (b : Option Reply) : ({ s with bus := b } : State).Inv :=
  h.answered b s.draws s.host

theorem State.Inv.resetBlock : (resetBlock s).Inv :=
  (State.resetWith_inv h.cap_range.1 h.cap_range.2).answered none s.draws s.host

theorem State.Inv.overrun : (overrun s).Inv where
  cap_range := h.cap_range
  regs_ok := h.regs_ok
  flags_legal := h.flags_legal
  pending := h.pending
  rejected _ := .inr rfl
  idle_wait := h.idle_wait

theorem State.Inv.clearErrors : (clearErrors s).Inv where
  cap_range := h.cap_range
  regs_ok := h.regs_ok
  flags_legal := h.flags_legal
  pending w hw := ⟨rfl, rfl, (h.pending w hw).2.2⟩
  rejected hr := by simp at hr
  idle_wait := h.idle_wait

/-- REJ is set on an idle block with an error pending (60_exceptions.md R608). -/
theorem State.Inv.reject (hp : s.pend = none) (he : s.err.isSome = true ∨ s.ovr = true) :
    (reject s).Inv where
  cap_range := h.cap_range
  regs_ok := h.regs_ok
  flags_legal := h.flags_legal
  pending w hw := by simp [hp] at hw
  rejected _ := he
  idle_wait := h.idle_wait

/-- With no error pending REJ is 0 too, so nothing stands beside the accepted word (60_exceptions.md R606). -/
theorem State.Inv.accept {w : Word} (hw : w ≠ clrerrWord) (he : s.err = none) (ho : s.ovr = false) :
    (accept w s).Inv where
  cap_range := h.cap_range
  regs_ok := h.regs_ok
  flags_legal := h.flags_legal
  pending w' hw' := by
    have hrej : s.rej = false := by
      by_contra hr
      have := h.rejected (by simpa using hr)
      simp [he, ho] at this
    obtain rfl : w = w' := by simpa using hw'
    exact ⟨he, hrej, hw⟩
  rejected := h.rejected
  idle_wait hp := by simp at hp

theorem State.Inv.setData (v : Word) : ({ s with data := v } : State).Inv :=
  ⟨h.cap_range, h.regs_ok, h.flags_legal, h.pending, h.rejected, h.idle_wait⟩

theorem State.Inv.hostEffect {e : HostEvent} {t : State} (ht : HostEffect s e t) : t.Inv := by
  cases ht with
  | answered => exact h.answered _ _ _
  | reset => exact h.resetBlock
  | overrun => exact h.overrun.setBus _
  | cleared => exact h.clearErrors.setBus _
  | rejected _ hp he => exact (h.reject hp he).setBus _
  | accepted w _ hw he ho => exact (h.accept hw he ho).setBus _
  | data v => exact (h.setData v).setBus _
  | limb _ i k v => exact (h.writeLimb i k v).setBus _

/-- The completion step leaves the block idle, and REJ as it was at acceptance, 0. -/
theorem State.Inv.finish_runWord {w : Word} {u : State} (hp : s.pend = some w) (hu : runWord w s = .next u) :
    (finish u).Inv where
  cap_range := by rw [finish_maxLimbs, runWord_maxLimbs hu]; exact h.cap_range
  regs_ok r := by rw [finish_maxLimbs, runWord_maxLimbs hu]; exact runWord_regs_ok h hu r
  flags_legal := by rw [finish_flags]; exact runWord_flags_legal h.flags_legal hu
  pending w' hw' := by simp at hw'
  rejected hr := by
    obtain ⟨-, hrej, hw⟩ := h.pending w hp
    rw [finish_rej, (runWord_ovr_rej hw hu).2, hrej] at hr
    cases hr
  idle_wait _ := rfl

end

/-- Settles O17: the completion step, a machine with nothing to do, and each effect of a host event. -/
theorem stepKeepsTheInvariant : Obligations.StepKeepsTheInvariant := by
  intro s t hs h
  rcases step_next_cases h with ⟨w, u, -, hp, hu, rfl⟩ | ⟨-, -, rfl⟩ | ⟨e, rest, -, he⟩
  · exact hs.finish_runWord hp hu
  · exact hs
  · exact (hs.taken rest).hostEffect (hostEvent_effect he)

/-! ### The error state -/

/-- A host event keeps ERR and lowers neither OVR nor REJ, or is one of the two that clear all three
(60_exceptions.md R602, R607 to R609, 70_reset_and_hazards.md R700). -/
theorem HostEffect.error_state {s t : State} {e : HostEvent} (h : HostEffect s e t) :
    (t.err = s.err ∧ (s.ovr = true → t.ovr = true) ∧ (s.rej = true → t.rej = true))
    ∨ (t.err = none ∧ (e = .reset ∨ (s.pend = none ∧ e = .write 4 0 clrerrWord))) := by
  cases h with
  | reset => exact .inr ⟨rfl, .inl rfl⟩
  | cleared hp => exact .inr ⟨rfl, .inr ⟨hp, rfl⟩⟩
  | overrun => exact .inl ⟨rfl, fun _ => rfl, id⟩
  | rejected => exact .inl ⟨rfl, id, fun _ => rfl⟩
  | _ => exact .inl ⟨rfl, id, id⟩

/-- Settles O11: a pending command has ERR and REJ 0 beside it and is no CLRERR, so its completion keeps OVR and has
no first error to lose; of the host's events only the two clearing ones lower a bit. -/
theorem errorStateIsSticky : Obligations.ErrorStateIsSticky := by
  intro s t hs h
  rcases step_next_cases h with ⟨w, u, -, hp, hu, rfl⟩ | ⟨-, -, rfl⟩ | ⟨e, rest, hturn, he⟩
  · obtain ⟨herr, hrej, hw⟩ := hs.pending w hp
    refine ⟨fun e he => ?_, fun ho => .inl ?_, fun hr => ?_⟩
    · simp [herr] at he
    · rw [finish_ovr, (runWord_ovr_rej hw hu).1, ho]
    · simp [hrej] at hr
  · exact ⟨fun e he => .inl he, .inl, .inl⟩
  · rcases (hostEvent_effect he).error_state with ⟨herr, hovr, hrej⟩ | ⟨herr, hclear⟩
    · exact ⟨fun e he => .inl (herr.trans he), fun ho => .inl (hovr ho), fun hr => .inl (hrej hr)⟩
    · have hev : s.ClearingEvent := by
        rcases hclear with rfl | ⟨hp, rfl⟩
        · exact ⟨rest, .inl hturn⟩
        · exact ⟨rest, .inr ⟨hp, hturn⟩⟩
      exact ⟨fun _ _ => .inr ⟨herr, hev⟩, fun _ => .inr hev, fun _ => .inr hev⟩

/-! ### FLAGS -/

/-- Settles O19: a host event but reset keeps FLAGS, and a command writes them only as CMP or TSTZ does. -/
theorem flagsChangeOnlyByCmpAndTstz : Obligations.FlagsChangeOnlyByCmpAndTstz := by
  intro s t h hne
  rcases step_next_cases h with ⟨w, u, hc, hp, hu, rfl⟩ | ⟨-, -, rfl⟩ | ⟨e, rest, hturn, he⟩
  · rw [finish_flags] at hne ⊢
    rcases runWord_next_cases hu with ⟨i, hd, hx⟩ | ⟨-, rfl⟩
    · rcases exec_flags_cases hx with hf | ⟨⟨a, b, rfl⟩, c, hf⟩ | ⟨⟨a, rfl⟩, z, hf⟩
      · exact absurd hf hne
      · refine .inr (.inl ⟨w, a, b, hp, hc, hd, ?_⟩)
        rw [hf]; exact ⟨rfl, rfl⟩
      · refine .inr (.inr ⟨w, a, hp, hc, hd, ?_⟩)
        rw [hf]; exact ⟨rfl, rfl, rfl, rfl, rfl⟩
    · exact absurd rfl hne
  · exact absurd rfl hne
  · by_cases hr : e = .reset
    · exact .inl ⟨rest, hr ▸ hturn⟩
    · exact absurd ((hostEvent_effect he).flags_eq hr) hne

/-! ### Accesses to the registers of the map -/

@[simp] theorem taken_exactRead (s : State) (rest : List HostEvent) (g : Target) :
    (s.taken rest).exactRead g = s.exactRead g := by
  cases g <;> rfl

/-- A read that is not open gives the register's word (20_memory.md R203, R208). -/
theorem step_of_exactRead {s : State} {off : Offset} {rest : List HostEvent} {g : Target}
    (h : s.HostTurn (.read 4 off) rest) (ho : off.toNat % 4 = 0) (hg : target s.maxLimbs off = g)
    (hx : s.pend = none ∨ g.openWhileBusy = false) :
    step s = .next { s.taken rest with bus := some (.data (s.exactRead g)) } := by
  have hclosed : ((s.taken rest).busy && g.openWhileBusy) = false := by
    rcases hx with hp | hg
    · rw [not_busy_of_pend (by exact hp), Bool.false_and]
    · rw [hg, Bool.and_false]
  rw [step_of_read h ho, hg, readTarget, if_neg (by simp [hclosed]), taken_exactRead]

/-- The registers of the map that a host write does not reach (20_memory.md R207). -/
def Target.readOnly : Target → Bool
  | .status | .flags | .cap | .dirty | .len _ | .reserved => true
  | .cmd | .data | .limb _ _ => false

theorem writeTarget_of_readOnly {g : Target} (h : g.readOnly = true) (v : Word) (s : State) :
    writeTarget g v s = .next s := by
  cases g with
  | cmd | data | limb => simp [Target.readOnly] at h
  | _ => rfl

theorem step_of_readOnlyWrite {s : State} {off : Offset} {v : Word} {rest : List HostEvent} {g : Target}
    (h : s.HostTurn (.write 4 off v) rest) (ho : off.toNat % 4 = 0) (hg : target s.maxLimbs off = g)
    (hr : g.readOnly = true) : step s = .next { s.taken rest with bus := some .done } := by
  rw [step_of_write h ho, hg, writeTarget_of_readOnly hr]
  rfl

theorem target_0x008 (m : Nat) : target m 0x008 = .data := rfl
theorem target_0x010 (m : Nat) : target m 0x010 = .cap := rfl
theorem target_0x014 (m : Nat) : target m 0x014 = .dirty := rfl

/-! ### CAP -/

/-- Settles O18: neither a command nor a host event writes MAX_LIMBS, and CAP is neither open nor writable. -/
theorem capIsConstant : Obligations.CapIsConstant := by
  refine ⟨fun s t h => ?_, resetWith_maxLimbs, fun s rest h => ?_, fun s rest v h => ?_⟩
  · rcases step_next_cases h with ⟨w, u, -, -, hu, rfl⟩ | ⟨-, -, rfl⟩ | ⟨e, rest, -, he⟩
    · exact (finish_maxLimbs u).trans (runWord_maxLimbs hu)
    · rfl
    · exact (hostEvent_effect he).maxLimbs_eq
  · exact step_of_exactRead h rfl (target_0x010 _) (.inr rfl)
  · exact step_of_readOnlyWrite h rfl (target_0x010 _) rfl

/-! ### DATA -/

theorem HostEffect.data_cases {s t : State} {e : HostEvent} (h : HostEffect s e t) :
    t.data = s.data ∨ (∃ v, s.pend = none ∧ e = .write 4 0x008 v ∧ t.data = v) ∨ (e = .reset ∧ t.data = 0) := by
  cases h with
  | reset => exact .inr (.inr ⟨rfl, rfl⟩)
  | data v hp => exact .inr (.inl ⟨v, hp, rfl, rfl⟩)
  | _ => exact .inl rfl

theorem step_data_cases {s t : State} (h : step s = .next t) : t.data = s.data
    ∨ (∃ v rest, s.pend = none ∧ s.HostTurn (.write 4 0x008 v) rest ∧ t.data = v)
    ∨ (∃ rest, s.HostTurn .reset rest ∧ t.data = 0) := by
  rcases step_next_cases h with ⟨w, u, -, -, hu, rfl⟩ | ⟨-, -, rfl⟩ | ⟨e, rest, hturn, he⟩
  · exact .inl ((finish_data u).trans (runWord_data hu))
  · exact .inl rfl
  · rcases (hostEvent_effect he).data_cases with hd | ⟨v, hp, rfl, hd⟩ | ⟨rfl, hd⟩
    · exact .inl hd
    · exact .inr (.inl ⟨v, rest, hp, hturn, hd⟩)
    · exact .inr (.inr ⟨rest, hturn, hd⟩)

/-- One word is one limb, which every legal MAX_LIMBS has room for. -/
theorem State.Inv.nlimbs_word_le {s : State} (h : s.Inv) (w : Word) : nlimbs w.toNat ≤ s.maxLimbs :=
  le_trans ((nlimbs_le_iff _ 1).2 (by simpa using word_lt_radix w)) (by have := h.cap_range.1; omega)

theorem exec_setw_val {s : State} (h : s.Inv) (rd : RegIx) :
    ∃ t, exec (.setw rd) s = .next t ∧ t.val rd = s.data.toNat :=
  ⟨_, rfl, (writeReg_holds s rd s.dataOperand (h.nlimbs_word_le s.data)).val_eq⟩

/-- SETLEN with a length operand in range keeps the limbs below it (40_representation.md R408). -/
theorem exec_setlen_val {s : State} (h : s.Inv) (rd : RegIx) :
    ∃ t, exec (.setlen rd) s = .next t
      ∧ (s.data.toNat ≤ s.maxLimbs → t.val rd = limbsVal ((s.reg rd).limbs.take s.data.toNat)) := by
  by_cases hn : s.maxLimbs < s.data.toNat
  · exact ⟨_, if_pos hn, fun hle => absurd hle (by omega)⟩
  · refine ⟨_, if_neg hn, fun hle => ?_⟩
    rw [State.val, reg_setReg_self]
    exact BigReg.normalise_val _ _ _ (h.regs_ok rd).limbs_length hle

theorem step_of_writeData {s : State} {v : Word} {rest : List HostEvent}
    (h : s.HostTurn (.write 4 0x008 v) rest) :
    (s.pend = none → step s = .next { s.taken rest with data := v, bus := some .done })
    ∧ (s.pend ≠ none → step s = .next { s.taken rest with ovr := true, bus := some .done }) := by
  rw [step_of_write h rfl, target_0x008, writeTarget]
  constructor
  · intro hp
    rw [if_neg (by simp [State.busy, hp])]; rfl
  · intro hp
    rw [if_pos (busy_of_pend (by exact hp))]; rfl

/-- Settles O20: a read is exact, and DATA's one writer but reset is a host write while BUSY = 0. -/
theorem dataIsWrittenOnlyByTheHost : Obligations.DataIsWrittenOnlyByTheHost :=
  ⟨fun _ _ _ => exec_data, fun _ _ h => step_of_exactRead h rfl (target_0x008 _) (.inr rfl),
    fun _ _ => step_data_cases, fun _ rd hs => ⟨exec_setw_val hs rd, exec_setlen_val hs rd⟩,
    fun _ _ _ => step_of_writeData, resetWith_data⟩

/-! ### The DIRTY word -/

theorem bitsVal_testBit (bs : List Bool) (k : Nat) : (bitsVal bs).testBit k = bs.getD k false := by
  induction bs generalizing k with
  | nil => simp [bitsVal]
  | cons b bs ih =>
    cases k with
    | zero => cases b <;> simp [bitsVal]
    | succ k =>
      rw [Nat.testBit_succ, List.getD_cons_succ, ← ih]
      congr 1
      have := Bool.toNat_lt b
      rw [bitsVal]; omega

/-- Bit `k` of the DIRTY word, at every width position (10_state.md R115). -/
theorem dirtyWord_getLsbD (s : State) (k : Nat) :
    s.dirtyWord.getLsbD k = if h : k < 16 then s.dirty ⟨k, h⟩ else false := by
  rw [State.dirtyWord, BitVec.getLsbD_ofNat, bitsVal_testBit]
  by_cases h : k < 16
  · simp [h, show k < 32 by omega, State.dirty, State.reg_eq]
  · simp [h]

theorem dirtyWord_resetWith (m : Nat) : (State.resetWith m).dirtyWord = 0 := by
  apply BitVec.eq_of_getLsbD_eq
  intro k _
  rw [dirtyWord_getLsbD]
  simp [State.dirty, BigReg.zero]

/-- Settles O29: the word is read exactly while idle and not writable, and bit `k` is DIRTY[k] below 16. -/
theorem dirtyWordBits : Obligations.DirtyWordBits := by
  refine ⟨fun s rest hp h => ?_, fun s rest v h => ?_, fun s i => ?_, fun s k hk => ?_, dirtyWord_resetWith⟩
  · exact step_of_exactRead h rfl (target_0x014 _) (.inl hp)
  · exact step_of_readOnlyWrite h rfl (target_0x014 _) rfl
  · rw [dirtyWord_getLsbD, dif_pos i.isLt]
  · rw [dirtyWord_getLsbD, dif_neg (by omega)]

/-! ### The LEN words -/

/-- The LEN field is 11 bits wide (10_state.md R116). -/
theorem lenWord_toNat (s : State) (i : RegIx) : (s.lenWord i).toNat = s.len i % 2 ^ 11 := by
  rw [State.lenWord, toNat_append_eq, BitVec.toNat_ofNat]
  simp

/-- LEN is at most MAX_LIMBS, at most 1024, so its field holds it. -/
theorem State.Inv.len_lt {s : State} (h : s.Inv) (i : RegIx) : s.len i < 2 ^ 11 := by
  have hle : s.len i ≤ s.maxLimbs := (h.regs_ok i).len_le
  have := h.cap_range.2
  omega

/-- Settles O30: 11 bits hold every LEN of the invariant, and the word is read exactly while idle and not writable. -/
theorem lenWordBits : Obligations.LenWordBits := by
  refine ⟨fun s i hs => ?_, fun m i => ?_, fun s rest off i ho => ?_⟩
  · have hlt := hs.len_lt i
    rw [lenWord_toNat, Nat.mod_eq_of_lt hlt]
    exact ⟨rfl, hlt⟩
  · apply BitVec.eq_of_toNat_eq
    simp [lenWord_toNat, State.len, BigReg.zero]
  · have halign : off.toNat % 4 = 0 := by omega
    exact ⟨fun hp h => step_of_exactRead h halign (target_len off i ho) (.inl hp),
      fun v h => step_of_readOnlyWrite h halign (target_len off i ho) rfl⟩

/-! ### The STATUS and FLAGS words -/

/-- The fields of STATUS stand side by side (10_state.md R112). -/
theorem statusWord_toNat (s : State) : s.statusWord.toNat
    = s.busy.toNat + 2 * s.ovr.toNat + 4 * s.rej.toNat + 256 * (errCode s.err).toNat := by
  simp only [State.statusWord, toNat_append_eq, BitVec.toNat_ofBool, BitVec.ofNat_eq_ofNat, BitVec.toNat_zero]
  omega

theorem busy_toNat (s : State) : s.busy.toNat = if s.pend = none then 0 else 1 := by
  cases hp : s.pend <;> simp [State.busy, hp]

theorem mul_toNat_eq_ite (n : Nat) (b : Bool) : n * b.toNat = if b = true then n else 0 := by
  cases b <;> simp

/-- Settles O27: the word field by field, and the codes of R600 one by one. -/
theorem statusWordFields : Obligations.StatusWordFields := by
  intro s
  simp only [statusWord_toNat, busy_toNat, mul_toNat_eq_ite]
  cases s.err with
  | none => rfl
  | some e => cases e <;> rfl

/-- Settles O28: the seven bits stand side by side. -/
theorem flagsWordFields : Obligations.FlagsWordFields := by
  intro f
  simp only [Flags.word, toNat_append_eq, BitVec.toNat_ofBool, BitVec.ofNat_eq_ofNat, BitVec.toNat_zero]
  omega

/-! ### The reset state -/

theorem BigReg.zero_limb (m k : Nat) : (BigReg.zero m).limb k = 0 := by
  by_cases hk : k < m <;> simp [BigReg.limb, BigReg.zero, hk]

theorem statusWord_resetWith (m : Nat) : (State.resetWith m).statusWord = 0 :=
  BitVec.eq_of_toNat_eq (statusWord_toNat (State.resetWith m))

/-- Settles O14: every register is `BigReg.zero`, whose LEN is 0, and every other field is reset. -/
theorem resetStateIsAllZero : Obligations.ResetStateIsAllZero := by
  refine ⟨rfl, fun m => ⟨fun i => ?_, rfl, rfl, rfl, rfl, rfl, rfl, statusWord_resetWith m, rfl, rfl⟩⟩
  simp only [State.len, State.dirty, State.val, reg_resetWith]
  exact ⟨rfl, BigReg.zero_limb m, rfl, rfl⟩

/-! ### The value of a register -/

/-- Settles O33: the live limbs are the first LEN stored ones (10_state.md R101). -/
theorem valueIsTheWeightedSumOfLimbs : Obligations.ValueIsTheWeightedSumOfLimbs := by
  intro s i hs
  have hlen : s.len i ≤ (s.reg i).limbs.length := by
    rw [(hs.regs_ok i).limbs_length]; exact (hs.regs_ok i).len_le
  have hsum : s.val i = ∑ k ∈ Finset.range (s.len i), ((s.reg i).limb k).toNat * 2 ^ (32 * k) := by
    simp only [pow_mul]
    exact limbsVal_take_eq_sum _ _ hlen
  exact ⟨hsum, fun h0 => by rw [hsum, h0, Finset.sum_range_zero]⟩

/-! ### What a command reads -/

/-- The outcomes of a command on `s₁` and `s₂` are next states with the same error, without one the same
registers `ds`, and the same FLAGS if those were the same before. -/
def AgreeNext (ds : List RegIx) (s₁ s₂ : State) (r₁ r₂ : Result) : Prop :=
  ∃ t₁ t₂, r₁ = .next t₁ ∧ r₂ = .next t₂ ∧ t₁.err = t₂.err
    ∧ (t₁.err = none → ∀ r ∈ ds, t₁.reg r = t₂.reg r) ∧ (s₁.flags = s₂.flags → t₁.flags = t₂.flags)

section
variable {s₁ s₂ : State}

theorem agreeNext_raise (ds : List RegIx) (e : ErrCode) : AgreeNext ds s₁ s₂ (raise e s₁) (raise e s₂) :=
  ⟨_, _, rfl, rfl, rfl, fun he => by simp at he, id⟩

/-- A condition for an error, the same on both states. -/
theorem agreeNext_guard {ds : List RegIx} {c : Prop} [Decidable c] {e : ErrCode} {r₁ r₂ : Result}
    (h : AgreeNext ds s₁ s₂ r₁ r₂) :
    AgreeNext ds s₁ s₂ (if c then raise e s₁ else r₁) (if c then raise e s₂ else r₂) := by
  split
  · exact agreeNext_raise ds e
  · exact h

/-- Commands that write FLAGS or the error state have no destination. -/
theorem agreeNext_nil {t₁ t₂ : State} (he : t₁.err = t₂.err) (hf : s₁.flags = s₂.flags → t₁.flags = t₂.flags) :
    AgreeNext [] s₁ s₂ (.next t₁) (.next t₂) :=
  ⟨_, _, rfl, rfl, he, fun _ _ hr => by simp at hr, hf⟩

theorem agreeNext_setReg (he : s₁.err = s₂.err) (d : RegIx) (r : BigReg) :
    AgreeNext [d] s₁ s₂ (.next (s₁.setReg d r)) (.next (s₂.setReg d r)) := by
  refine ⟨_, _, rfl, rfl, he, fun _ i hi => ?_, id⟩
  rw [List.mem_singleton.1 hi, reg_setReg_self, reg_setReg_self]

theorem agreeNext_writeReg (he : s₁.err = s₂.err) (hm : s₁.maxLimbs = s₂.maxLimbs) (d : RegIx) (v : Nat) :
    AgreeNext [d] s₁ s₂ (.next (s₁.writeReg d v)) (.next (s₂.writeReg d v)) := by
  simp only [State.writeReg, hm]
  exact agreeNext_setReg he d _

theorem agreeNext_writeReg_writeReg (he : s₁.err = s₂.err) (hm : s₁.maxLimbs = s₂.maxLimbs) (d e : RegIx)
    (v w : Nat) : AgreeNext [d, e] s₁ s₂ (.next ((s₁.writeReg d v).writeReg e w))
      (.next ((s₂.writeReg d v).writeReg e w)) := by
  refine ⟨_, _, rfl, rfl, he, fun _ i hi => ?_, id⟩
  have hi : i = d ∨ i = e := by simpa using hi
  simp only [reg_writeReg, writeReg_maxLimbs, hm]
  rcases hi with rfl | rfl <;> simp

theorem anyDirty_congr {is : List RegIx} (h : ∀ r ∈ is, s₁.reg r = s₂.reg r) : s₁.anyDirty is = s₂.anyDirty is := by
  induction is with
  | nil => rfl
  | cons i is ih =>
    simp only [State.anyDirty, List.any_cons, State.dirty] at ih ⊢
    rw [h i (by simp), ih fun r hr => h r (by simp [hr])]

end

/-- Every command, on two states that agree on what it reads: its conditions and its results are the same. -/
theorem exec_agreeNext {i : Instr} {s₁ s₂ : State} (hsrc : ∀ r ∈ sources i, s₁.reg r = s₂.reg r)
    (hdata : s₁.data = s₂.data) (hm : s₁.maxLimbs = s₂.maxLimbs) (he : s₁.err = s₂.err) :
    AgreeNext (destinations i) s₁ s₂ (exec i s₁) (exec i s₂) := by
  have hdirty := anyDirty_congr hsrc
  cases i <;> simp only [sources, List.forall_mem_cons, List.not_mem_nil, false_imp_iff, implies_true,
    and_true] at hsrc hdirty
  case nop => exact agreeNext_nil he id
  case clrerr => exact agreeNext_nil rfl id
  case clr rd => exact agreeNext_writeReg he hm rd 0
  case setw rd =>
    simp only [exec, execSetw, State.dataOperand, hdata]
    exact agreeNext_writeReg he hm rd _
  case const rd k =>
    simp only [exec, execConst]
    split
    · exact agreeNext_writeReg he hm rd _
    · exact agreeNext_raise _ _
  case setlen rd =>
    simp only [exec, execSetlen, State.dataOperand, hdata, hm, hsrc]
    exact agreeNext_guard (agreeNext_setReg he rd _)
  case copy rd rs1 =>
    simp only [exec, execCopy, hdirty, State.val, hsrc]
    exact agreeNext_guard (agreeNext_writeReg he hm rd _)
  case tstz rs1 =>
    simp only [exec, execTstz, hdirty, State.len, hsrc]
    exact agreeNext_guard (agreeNext_nil he fun hf => by rw [hf])
  case cmp rs1 rs2 =>
    simp only [exec, execCmp, hdirty, State.live, hsrc]
    exact agreeNext_guard (agreeNext_nil he fun hf => by rw [hf])
  case add rd rs1 rs2 =>
    simp only [exec, execAdd, hdirty, State.live, hsrc, hm]
    exact agreeNext_guard (agreeNext_guard (agreeNext_writeReg he hm rd _))
  case sub rd rs1 rs2 =>
    simp only [exec, execSub, hdirty, State.live, hsrc]
    exact agreeNext_guard (agreeNext_guard (agreeNext_writeReg he hm rd _))
  case mul rd rs1 rs2 =>
    simp only [exec, execMul, hdirty, State.live, hsrc, hm]
    exact agreeNext_guard (agreeNext_guard (agreeNext_writeReg he hm rd _))
  case div rd rs1 rs2 rs3 =>
    simp only [exec, execDiv, hdirty, State.live, State.len, hsrc]
    exact agreeNext_guard (agreeNext_guard (agreeNext_guard (agreeNext_writeReg_writeReg he hm rd rs3 _ _)))
  case mod rd rs1 rs2 =>
    simp only [exec, execMod, hdirty, State.live, State.len, hsrc]
    exact agreeNext_guard (agreeNext_guard (agreeNext_writeReg he hm rd _))
  case mulmod rd rs1 rs2 rs3 =>
    simp only [exec, execMulmod, hdirty, State.live, State.len, hsrc]
    exact agreeNext_guard (agreeNext_guard (agreeNext_writeReg he hm rd _))

/-- Settles O54: with no error recorded before, the two outcomes agree (`exec_agreeNext`). -/
theorem commandReadsOnlyItsSources : Obligations.CommandReadsOnlyItsSources := by
  intro i s₁ s₂ t₁ t₂ hsrc hdata hm he₁ he₂ h₁ h₂
  obtain ⟨u₁, u₂, hu₁, hu₂, hagree⟩ := exec_agreeNext hsrc hdata hm (he₁.trans he₂.symm)
  obtain rfl : t₁ = u₁ := by simpa [h₁] using hu₁
  obtain rfl : t₂ = u₂ := by simpa [h₂] using hu₂
  exact hagree

end Sys2Proof.Machine

/-! The host register space (20_memory.md R200 to R212): which accesses are legal, the steps of open reads and of limb
writes, how long a register stays dirty, and the window bytes. -/

namespace Sys2Proof.Machine

/-! ### Legal accesses (R202) -/

theorem legalAccess_eq_true_iff (width : Nat) (off : Offset) :
    legalAccess width off = true ↔ width = 4 ∧ off.toNat % 4 = 0 := by
  refine ⟨fun h => ?_, fun ⟨hw, ho⟩ => by rw [hw, legalAccess_of_aligned ho]⟩
  obtain rfl := eq_four_of_legalAccess h
  have hlow : off.extractLsb' 0 2 = 0 := by simpa [legalAccess] using h
  exact ⟨rfl, by simpa using congrArg BitVec.toNat hlow⟩

theorem hostRead_of_illegal {width : Nat} {off : Offset} (h : ¬ legalAccess width off = true) (s : State) :
    hostRead width off s = .fault (.busError width off) := if_neg h

theorem hostWrite_of_illegal {width : Nat} {off : Offset} (h : ¬ legalAccess width off = true) (v : Word) (s : State) :
    hostWrite width off v s = .fault (.busError width off) := if_neg h

/-- A read is answered with data, open or exact. -/
theorem readTarget_bus (g : Target) (s : State) : ∃ x, (readTarget g s).bus = some (.data x) := by
  rw [readTarget]
  split
  · exact ⟨_, rfl⟩
  · exact ⟨_, rfl⟩

/-- Settles O21: an illegal access is `legalAccess` = false, a legal one reaches its target, which answers. -/
theorem illegalAccessIsBusError : Obligations.IllegalAccessIsBusError := by
  intro s rest width off v
  refine ⟨fun hbad => ?_, ?_⟩
  · have hillegal : ¬ legalAccess width off = true := by
      rw [legalAccess_eq_true_iff]; tauto
    exact ⟨fun h => (step_of_hostTurn h).trans (hostRead_of_illegal hillegal _),
      fun h => (step_of_hostTurn h).trans (hostWrite_of_illegal hillegal v _)⟩
  · rintro rfl ho
    refine ⟨fun h => ?_, fun h => ?_⟩
    · obtain ⟨x, hx⟩ := readTarget_bus (target s.maxLimbs off) (s.taken rest)
      exact ⟨_, x, step_of_read h ho, hx⟩
    · obtain ⟨u, hu⟩ := writeTarget_next (target s.maxLimbs off) v (s.taken rest)
      exact ⟨_, by rw [step_of_write h ho, hu]; rfl, rfl⟩

/-! ### Host addresses (R200, R201) -/

theorem offsetOf_eq_some_iff (base addr : Nat) (off : Offset) :
    offsetOf base addr = some off ↔ addr = base + off.toNat := by
  have hlt := off.isLt
  rw [offsetOf]
  split
  · rw [Option.some_inj, ← BitVec.toNat_inj, BitVec.toNat_ofNat, Nat.mod_eq_of_lt (by omega)]
    omega
  · simp only [reduceCtorEq, false_iff]
    omega

/-- Settles O32: BASE is a multiple of 4, so an address and its offset agree modulo 4. -/
theorem hostAddressesReachTheirOffset : Obligations.HostAddressesReachTheirOffset := by
  intro base addr hbase
  refine ⟨offsetOf_eq_some_iff base addr, fun off h => ?_⟩
  rw [offsetOf_eq_some_iff] at h
  omega

/-! ### The map at its fixed offsets and at the reserved limbs (R201, R204) -/

theorem target_0x000 (m : Nat) : target m 0x000 = .cmd := rfl
theorem target_0x004 (m : Nat) : target m 0x004 = .status := rfl
theorem target_0x00C (m : Nat) : target m 0x00C = .flags := rfl

/-- An offset given by its number is the offset literal. -/
theorem target_at {m n : Nat} {off : Offset} {g : Target} (ho : off.toNat = n)
    (hg : target m (BitVec.ofNat 17 n) = g) : target m off = g := by
  rwa [← ho, BitVec.ofNat_toNat, BitVec.setWidth_eq] at hg

theorem target_reserved_limb {m : Nat} {off : Offset} {i : RegIx} {k : Nat} (hk : k < 1024) (hm : m ≤ k)
    (ho : off.toNat = 0x1000 + 0x1000 * i.val + 4 * k) : target m off = .reserved :=
  target_reserved off (.inr (.inr (.inl ⟨i.val, k, i.isLt, hk, hm, ho⟩)))

/-! ### Reads (R204, R207, R208) -/

/-- A read of an open target while BUSY = 1 draws the next free value (R208). -/
theorem step_of_openRead {s : State} {off : Offset} {rest : List HostEvent} {g : Target}
    (h : s.HostTurn (.read 4 off) rest) (ho : off.toNat % 4 = 0) (hg : target s.maxLimbs off = g)
    (hp : s.pend ≠ none) (hopen : g.openWhileBusy = true) :
    step s = .next { s.taken rest with
      bus := some (.data (Config.freeWord s.draws)), draws := s.draws + 1 } := by
  have hbusy : (s.taken rest).busy = true := busy_of_pend hp
  rw [step_of_read h ho, hg, readTarget, if_pos (by rw [hbusy, hopen]; rfl)]
  rfl

/-- Settles O22: the map's target at the offset, and the word an exact read gives there. -/
theorem idleReadsFollowTheRegisterMap : Obligations.IdleReadsFollowTheRegisterMap := by
  intro s rest off hp h x hx
  have read (g : Target) (ho : off.toNat % 4 = 0) (hg : target s.maxLimbs off = g) :=
    step_of_exactRead h ho hg (.inl hp)
  rcases hx with ⟨ho, rfl⟩ | ⟨ho, rfl⟩ | ⟨ho, rfl⟩ | ⟨ho, rfl⟩ | ⟨ho, rfl⟩ | ⟨ho, rfl⟩ | ⟨i, ho, rfl⟩
    | ⟨i, k, hk, hm, ho, rfl⟩ | ⟨ho, rfl, hrange⟩
  · exact read .cmd (by omega) (target_at ho (target_0x000 _))
  · exact read .status (by omega) (target_at ho (target_0x004 _))
  · exact read .data (by omega) (target_at ho (target_0x008 _))
  · exact read .flags (by omega) (target_at ho (target_0x00C _))
  · exact read .cap (by omega) (target_at ho (target_0x010 _))
  · exact read .dirty (by omega) (target_at ho (target_0x014 _))
  · exact read (.len i) (by omega) (target_len off i ho)
  · exact read (.limb i k) (by omega) (target_limb off i k i.isLt hk hm ho)
  · exact read .reserved ho (target_reserved off (by tauto))

/-- Settles O23: below MAX_LIMBS the target is the limb, an open one, and above it is reserved. -/
theorem limbWindowRead : Obligations.LimbWindowRead := by
  intro s rest off i k hk ho h
  have halign : off.toNat % 4 = 0 := by omega
  have hlimb (hm : k < s.maxLimbs) : target s.maxLimbs off = .limb i k := target_limb off i k i.isLt hk hm ho
  exact ⟨fun hp hm => step_of_exactRead h halign (hlimb hm) (.inl hp),
    fun hm => step_of_exactRead h halign (target_reserved_limb hk hm ho) (.inr rfl),
    fun hp hm => step_of_openRead h halign (hlimb hm) hp rfl⟩

/-- Settles O26: each offset's target is open while busy, or it is read exactly. -/
theorem readsWhileBusy : Obligations.ReadsWhileBusy := by
  intro s rest off hp h
  have openRead (g : Target) (ho : off.toNat % 4 = 0) (hg : target s.maxLimbs off = g)
    (hopen : g.openWhileBusy = true) := step_of_openRead h ho hg hp hopen
  have exactRead (g : Target) (ho : off.toNat % 4 = 0) (hg : target s.maxLimbs off = g)
    (hclosed : g.openWhileBusy = false) := step_of_exactRead h ho hg (.inr hclosed)
  constructor
  · rintro (ho | ho | ⟨i, ho⟩ | ⟨i, k, hi, hk, hm, ho⟩)
    · exact openRead .flags (by omega) (target_at ho (target_0x00C _)) rfl
    · exact openRead .dirty (by omega) (target_at ho (target_0x014 _)) rfl
    · exact openRead (.len i) (by omega) (target_len off i ho) rfl
    · exact openRead (.limb ⟨i, hi⟩ k) (by omega) (target_limb off i k hi hk hm ho) rfl
  · rintro x (⟨ho, rfl⟩ | ⟨ho, rfl⟩ | ⟨ho, rfl⟩ | ⟨ho, rfl⟩ | ⟨rfl, ho, hrange⟩)
    · exact exactRead .cmd (by omega) (target_at ho (target_0x000 _)) rfl
    · exact exactRead .status (by omega) (target_at ho (target_0x004 _)) rfl
    · exact exactRead .data (by omega) (target_at ho (target_0x008 _)) rfl
    · exact exactRead .cap (by omega) (target_at ho (target_0x010 _)) rfl
    · exact exactRead .reserved ho (target_reserved off hrange) rfl

/-! ### Ignored writes (R207) -/

/-- The read-only registers of the map, LEN's sixteen words among them (R207). -/
theorem target_readOnly {m : Nat} {off : Offset} (ho : off.toNat % 4 = 0)
    (h : off.toNat = 0x004 ∨ off.toNat = 0x00C ∨ off.toNat = 0x010 ∨ off.toNat = 0x014
      ∨ (0x040 ≤ off.toNat ∧ off.toNat ≤ 0x07C)) : (target m off).readOnly = true := by
  rcases h with h | h | h | h | ⟨hlo, hhi⟩
  · rw [target_at h (target_0x004 m)]; rfl
  · rw [target_at h (target_0x00C m)]; rfl
  · rw [target_at h (target_0x010 m)]; rfl
  · rw [target_at h (target_0x014 m)]; rfl
  · have hi : off.toNat = 0x040 + 4 * ((off.toNat - 0x040) / 4) := by omega
    rw [target_len off ⟨(off.toNat - 0x040) / 4, by omega⟩ hi]; rfl

/-- Settles O25: a reserved target reads 0 and, like the read-only registers, ignores a write. -/
theorem reservedAndReadOnlyOffsets : Obligations.ReservedAndReadOnlyOffsets := by
  intro s rest off ho
  refine ⟨fun hrange => ?_, fun hrange v h => step_of_readOnlyWrite h ho rfl (target_readOnly ho hrange)⟩
  have hg : target s.maxLimbs off = .reserved := target_reserved off hrange
  exact ⟨fun h => step_of_exactRead h ho hg (.inr rfl), fun v h => step_of_readOnlyWrite h ho hg rfl⟩

/-! ### The limb write (R205) -/

theorem limb_writeLimb_self (s : State) (i : RegIx) {k : Nat} (v : Word) (hk : k < (s.reg i).limbs.length) :
    ((s.writeLimb i k v).reg i).limb k = v := by
  simp [reg_writeLimb, BigReg.limb, hk]

theorem limb_writeLimb_ne (s : State) (i : RegIx) {j k : Nat} (v : Word) (hj : j ≠ k) :
    ((s.writeLimb i k v).reg i).limb j = (s.reg i).limb j := by
  simp [reg_writeLimb, BigReg.limb, List.getElem?_set_ne hj.symm]

theorem dirty_writeLimb_self (s : State) (i : RegIx) (k : Nat) (v : Word) : (s.writeLimb i k v).dirty i = true := by
  rw [State.dirty, reg_writeLimb, if_pos rfl]

theorem len_writeLimb_self (s : State) (i : RegIx) (k : Nat) (v : Word) : (s.writeLimb i k v).len i = s.len i := by
  rw [State.len, reg_writeLimb, if_pos rfl]; rfl

theorem writeLimb_sameExcept (s : State) (i : RegIx) (k : Nat) (v : Word) :
    SameExcept [i] s (s.writeLimb i k v) where
  regs j hj := reg_setReg_ne s i j _ (by simpa using hj)
  maxLimbs := rfl
  flags := rfl
  data := rfl
  err := rfl
  ovr := rfl
  rej := rfl
  pend := rfl
  wait := rfl
  host := rfl
  bus := rfl
  draws := rfl

theorem step_of_writeLimb {s : State} {off : Offset} {v : Word} {rest : List HostEvent} {i : RegIx} {k : Nat}
    (h : s.HostTurn (.write 4 off v) rest) (ho : off.toNat % 4 = 0) (hg : target s.maxLimbs off = .limb i k) :
    (s.pend ≠ none → step s = .next { s.taken rest with ovr := true, bus := some .done })
    ∧ (s.pend = none →
        step s = .next (({ s.taken rest with bus := some .done } : State).writeLimb i k v)) := by
  rw [step_of_write h ho, hg, writeTarget]
  refine ⟨fun hp => ?_, fun hp => ?_⟩
  · have hbusy : (s.taken rest).busy = true := busy_of_pend hp
    rw [if_pos hbusy]; rfl
  · have hidle : (s.taken rest).busy = false := not_busy_of_pend hp
    rw [if_neg (by simp [hidle])]; rfl

/-! ### How long DIRTY lasts (R205) -/

/-- No host event but reset makes a dirty register clean. -/
theorem HostEffect.dirty_of_dirty {s t : State} {e : HostEvent} (h : HostEffect s e t) (hr : e ≠ .reset) {i : RegIx}
    (hd : s.dirty i = true) : t.dirty i = true := by
  cases h with
  | reset => exact absurd rfl hr
  | limb _ j k v =>
    by_cases hij : i = j
    · exact hij ▸ dirty_writeLimb_self s i k v
    · exact (congrArg BigReg.dirty (reg_setReg_ne s j i _ hij)).trans hd
  | _ => exact hd

/-- A completion step keeps the registers that are no destinations of the word's command. -/
theorem runWord_reg_or_destination {w : Word} {s u : State} (h : runWord w s = .next u) (i : RegIx) :
    u.reg i = s.reg i ∨ ∃ c, decode w = .ok c ∧ i ∈ destinations c := by
  rcases runWord_next_cases h with ⟨c, hc, hx⟩ | ⟨-, rfl⟩
  · by_cases hi : i ∈ destinations c
    · exact .inr ⟨c, hc, hi⟩
    · exact .inl (exec_reg_of_not_mem_destinations hx hi)
  · exact .inl rfl

theorem step_dirty_cases {s t : State} {i : RegIx} (hd : s.dirty i = true) (h : step s = .next t) :
    t.dirty i = true ∨ (∃ rest, s.HostTurn .reset rest)
      ∨ ∃ w c, s.completes = true ∧ s.pend = some w ∧ decode w = .ok c ∧ i ∈ destinations c := by
  rcases step_next_cases h with ⟨w, u, hc, hp, hu, rfl⟩ | ⟨-, -, rfl⟩ | ⟨e, rest, hturn, he⟩
  · rcases runWord_reg_or_destination hu i with hreg | ⟨c, hdec, hi⟩
    · exact .inl ((congrArg BigReg.dirty hreg).trans hd)
    · exact .inr (.inr ⟨w, c, hc, hp, hdec, hi⟩)
  · exact .inl hd
  · by_cases hr : e = .reset
    · exact .inr (.inl ⟨rest, hr ▸ hturn⟩)
    · exact .inl ((hostEvent_effect he).dirty_of_dirty hr hd)

/-- Settles O24: the one register the write reaches, and `step_dirty_cases` for how long it stays dirty. -/
theorem limbWindowWrite : Obligations.LimbWindowWrite := by
  refine ⟨fun s rest off v i k hs hk ho h => ?_, fun s t i => step_dirty_cases⟩
  have halign : off.toNat % 4 = 0 := by omega
  have hlimb (hm : k < s.maxLimbs) : target s.maxLimbs off = .limb i k := target_limb off i k i.isLt hk hm ho
  refine ⟨fun hp hm => (step_of_writeLimb h halign (hlimb hm)).1 hp, fun hp hm => ?_,
    fun hm => step_of_readOnlyWrite h halign (target_reserved_limb hk hm ho) rfl⟩
  have hstored : k < (s.reg i).limbs.length := by rwa [(hs.regs_ok i).limbs_length]
  exact ⟨_, (step_of_writeLimb h halign (hlimb hm)).2 hp, limb_writeLimb_self _ i v hstored,
    dirty_writeLimb_self _ i k v, len_writeLimb_self _ i k v, fun j hj => limb_writeLimb_ne _ i v hj,
    writeLimb_sameExcept _ i k v⟩

/-! ### The window bytes (R210 to R212) -/

/-- Byte lane `j` of limb `k` of a number is its byte 4k + j. -/
theorem byteLane_limbAt (k v : Nat) {j : Nat} (hj : j < 4) :
    (byteLane (limbAt k v) j).toNat = v / 256 ^ (4 * k + j) % 256 := by
  have hsplit : 2 ^ 32 = 2 ^ (8 * j) * 2 ^ (32 - 8 * j) := by rw [← pow_add]; congr 1; omega
  have hbyte : 256 ∣ 2 ^ (32 - 8 * j) := pow_dvd_pow 2 (show 8 ≤ 32 - 8 * j by omega)
  have hweight : radix ^ k * 2 ^ (8 * j) = 256 ^ (4 * k + j) := by
    rw [radix, show 256 = 2 ^ 8 by norm_num, ← pow_mul, ← pow_mul, ← pow_add]; congr 1; omega
  calc (byteLane (limbAt k v) j).toNat = v / radix ^ k % 2 ^ 32 / 2 ^ (8 * j) % 256 := by
        rw [byteLane, limbAt, BitVec.extractLsb'_toNat, BitVec.toNat_ofNat, Nat.shiftRight_eq_div_pow]
    _ = v / radix ^ k / 2 ^ (8 * j) % 256 := by
        rw [hsplit, Nat.mod_mul_right_div_self, Nat.mod_mod_of_dvd _ hbyte]
    _ = v / 256 ^ (4 * k + j) % 256 := by rw [Nat.div_div_eq_div_mul, hweight]

/-- Settles O31: a clean register's limbs are those of its value, and byte `m` is lane m mod 4 of limb m div 4. -/
theorem windowBytesAreTheValue : Obligations.WindowBytesAreTheValue := by
  intro s i m hs hclean hm
  rw [State.windowByte, (hs.regs_ok i).limb_eq hclean (m / 4) (by omega),
    byteLane_limbAt _ _ (Nat.mod_lt m (by norm_num)), Nat.div_add_mod, State.val]

end Sys2Proof.Machine

/-! The encoding (30_encoding.md): a word spells a row's command exactly when it is that command's word, from which
follow the round trips, the opcode map and the illegal words. -/

namespace Sys2Proof

open Machine

/-! ### The bits a row fixes (R302, R303) -/

/-- A field's part of a row's mask: no bit of a field the row uses, every bit of a must-be-zero field. -/
def fieldMask (n : Nat) (used : Bool) : BitVec n := bif used then 0 else BitVec.allOnes n

/-- A field's part of a row's word: the field itself when the row uses it, else zero. -/
def usedField {n : Nat} (used : Bool) (x : BitVec n) : BitVec n := bif used then x else 0

theorem and_fieldMask_eq_zero_iff {n : Nat} (used : Bool) (x : BitVec n) :
    x &&& fieldMask n used = 0 ↔ usedField used x = x := by
  cases used with
  | true => simp [fieldMask, usedField]
  | false => simpa [fieldMask, usedField] using eq_comm

/-- Under a mask that keeps op and the must-be-zero fields, a word equals a bare op exactly when it is built from
that op and the fields in use. -/
theorem and_rowMask_eq_iff (w : Word) (o : BitVec 8) (d a b c i : Bool) :
    w &&& mkWord 0xFF (fieldMask 4 d) (fieldMask 4 a) (fieldMask 4 b) (fieldMask 4 c) (fieldMask 8 i)
        = mkWord o 0 0 0 0 0
      ↔ mkWord o (usedField d (rdField w)) (usedField a (rs1Field w)) (usedField b (rs2Field w))
        (usedField c (rs3Field w)) (usedField i (imm8Field w)) = w := by
  have hop : opField w &&& 0xFF = o ↔ o = opField w := by
    rw [show (0xFF : BitVec 8) = BitVec.allOnes 8 from rfl, BitVec.and_allOnes, eq_comm]
  conv_rhs => rhs; rw [← mkWord_fields w]
  simp only [word_and_eq, mkWord_inj, hop, and_fieldMask_eq_zero_iff]

/-! ### Rows and commands (R304) -/

/-- A word spells a row's command exactly when it is that command's word: the mask leaves out the bits of the fields
the command uses and no others. -/
theorem spells_iff_encode_build (w : Word) :
    ∀ r ∈ opcodeMap, (r.spells w = true ↔ encode (r.build w) = w) := by
  have row := and_rowMask_eq_iff w
  simp only [opcodeMap, List.cons_append, List.nil_append, List.forall_mem_cons, Row.spells, beq_iff_eq, encode,
    bitsOfReg_regOfBits, BitVec.ofNat_toNat, BitVec.setWidth_eq]
  exact ⟨row 0x01 false false false false false, row 0x02 true false false false false,
    row 0x03 true true false false false, row 0x04 true false false false true,
    row 0x05 true false false false false, row 0x06 true false false false false,
    row 0x07 false false false false false, row 0x10 true true true false false,
    row 0x11 true true true false false, row 0x12 true true true false false,
    row 0x13 true true true true false, row 0x14 true true true false false,
    row 0x15 true true true true false, row 0x20 false true true false false,
    row 0x21 false true false false false, fun _ h => absurd h List.not_mem_nil⟩

theorem wellFormed_build (w : Word) : ∀ r ∈ opcodeMap, (r.build w).wellFormed = true := by
  simp only [opcodeMap, List.cons_append, List.nil_append, List.forall_mem_cons, Instr.wellFormed,
    decide_eq_true_iff, true_and]
  exact ⟨(imm8Field w).isLt, fun _ h => absurd h List.not_mem_nil⟩

/-- A command's place in the opcode map. -/
def rowIndex : Instr → Fin 15
  | .nop => 0
  | .clr _ => 1
  | .copy _ _ => 2
  | .const _ _ => 3
  | .setw _ => 4
  | .setlen _ => 5
  | .clrerr => 6
  | .add _ _ _ => 7
  | .sub _ _ _ => 8
  | .mul _ _ _ => 9
  | .div _ _ _ _ => 10
  | .mod _ _ _ => 11
  | .mulmod _ _ _ _ => 12
  | .cmp _ _ => 13
  | .tstz _ => 14

/-- The row of a command reads its operands back from its word. -/
theorem build_encode {i : Instr} (hi : i.wellFormed = true) : (opcodeMap.get (rowIndex i)).build (encode i) = i := by
  cases i with
  | const rd k =>
    have hk : k < 256 := of_decide_eq_true hi
    simp [rowIndex, opcodeMap, encode, Nat.mod_eq_of_lt hk]
  | _ => simp [rowIndex, opcodeMap, encode]

/-! ### Round trips -/

/-- Settles O1: the word of `i` is the word of what `i`'s row reads from it, so it spells that row's command. -/
theorem decodeInvertsEncode : Obligations.DecodeInvertsEncode := by
  intro i hi
  have hrow : opcodeMap.get (rowIndex i) ∈ opcodeMap := List.get_mem _ _
  have hspells := (spells_iff_encode_build (encode i) _ hrow).2 (congrArg encode (build_encode hi))
  exact (decode_eq_ok_iff _ _).2 ⟨_, hrow, hspells, build_encode hi⟩

/-- Settles O2: the word spells the command of the row that decoded it. -/
theorem encodeInvertsDecode : Obligations.EncodeInvertsDecode := by
  intro w i h
  obtain ⟨r, hr, hspells, rfl⟩ := (decode_eq_ok_iff w i).1 h
  exact ⟨wellFormed_build w r hr, (spells_iff_encode_build w r hr).1 hspells⟩

theorem decode_of_encode_eq {w : Word} {i : Instr} (hi : i.wellFormed = true) (hw : encode i = w) :
    decode w = .ok i :=
  hw ▸ decodeInvertsEncode i hi

/-- Settles O4: each word is the word of its command. -/
theorem exampleWordsDecode : Obligations.ExampleWordsDecode := by
  unfold Obligations.ExampleWordsDecode
  and_intros <;> exact decode_of_encode_eq rfl rfl

/-! ### The opcode map -/

/-- A row's match is exactly the words that decode to its command with the fields of the word. -/
theorem and_mask_eq_iff_decode (w : Word) :
    ∀ r ∈ opcodeMap, (w &&& r.mask = r.pattern ↔ decode w = .ok (r.build w)) := by
  intro r hr
  have hspells : w &&& r.mask = r.pattern ↔ r.spells w = true := beq_iff_eq.symm
  refine hspells.trans ⟨fun h => (decode_eq_ok_iff _ _).2 ⟨r, hr, h, rfl⟩, fun h => ?_⟩
  exact (spells_iff_encode_build w r hr).2 (encodeInvertsDecode w _ h).2

/-- A register field of a word is the register number at its lowest bit (R301). -/
theorem regOfBits_extractLsb' (w : Word) (lo : Nat) : regOfBits (w.extractLsb' lo 4) = regAt w lo :=
  Fin.ext (extract_toNat w lo 4)

theorem imm8Field_toNat (w : Word) : (imm8Field w).toNat = w.toNat % 256 := by
  simp [imm8Field]

/-- Settles O3: `and_mask_eq_iff_decode` for the fifteen rows, the fields written as numbers. -/
theorem opcodeMapSpellsEachCommand : Obligations.OpcodeMapSpellsEachCommand := by
  intro w
  have rows := and_mask_eq_iff_decode w
  simp only [opcodeMap, List.cons_append, List.nil_append, List.forall_mem_cons, rdField, rs1Field, rs2Field,
    rs3Field, regOfBits_extractLsb', imm8Field_toNat] at rows
  obtain ⟨nop, clr, copy, const, setw, setlen, clrerr, add, sub, mul, div, mod, mulmod, cmp, tstz, -⟩ := rows
  exact ⟨nop, clr, copy, const, setw, setlen, clrerr, add, sub, mul, div, mod, mulmod, cmp, tstz⟩

/-! ### Illegal words (R305) -/

theorem opField_toNat (w : Word) : (opField w).toNat = w.toNat / 2 ^ 24 := by
  rw [opField, extract_toNat]
  exact Nat.mod_eq_of_lt (by have := w.isLt; omega)

/-- The ops of the opcode map, the mask of each row beside it. -/
def opMasks : List (Nat × Word) := opcodeMap.map fun r => ((opField r.pattern).toNat, r.mask)

/-- A word that decodes has an op of the map, and none of the bits its mask keeps below the op. -/
theorem op_of_decode {w : Word} {i : Instr} (h : decode w = .ok i) :
    ∃ m, (w.toNat / 2 ^ 24, m) ∈ opMasks ∧ w &&& (m &&& 0x00FFFFFF) = 0 := by
  have hpattern : ∀ r ∈ opcodeMap, r.pattern &&& 0x00FFFFFF = 0 := by decide +kernel
  obtain ⟨r, hr, hspells, -⟩ := (decode_eq_ok_iff w i).1 h
  refine ⟨r.mask, ?_, ?_⟩
  · rw [← opField_toNat, spells_opField hr hspells]
    exact List.mem_map_of_mem hr
  · have hmatch : w &&& r.mask = r.pattern := beq_iff_eq.1 hspells
    rw [← BitVec.and_assoc, hmatch, hpattern r hr]

/-- The ops of the map lie in none of R305's ranges. -/
theorem op_assigned_of_mem_opMasks : ∀ p ∈ opMasks,
    ¬ (p.1 = 0x00 ∨ (0x08 ≤ p.1 ∧ p.1 ≤ 0x0F) ∨ (0x16 ≤ p.1 ∧ p.1 ≤ 0x1F) ∨ (0x22 ≤ p.1 ∧ p.1 ≤ 0xFF)) := by
  decide +kernel

/-- No two rows share an op (R303). -/
theorem mask_eq_of_op_eq : ∀ p ∈ opMasks, ∀ q ∈ opMasks, p.1 = q.1 → p.2 = q.2 := by
  decide +kernel

theorem step_of_not_decode {w : Word} {s : State} (hp : s.pend = some w) (hc : s.completes = true)
    (h : ∀ i, decode w ≠ .ok i) : step s = .next { s with err := some .illegalOp, pend := none, wait := 0 } := by
  rw [step_of_completes hc hp, completeWord, runWord]
  cases hd : decode w with
  | ok i => exact absurd hd (h i)
  | error e => rfl

/-- Settles O5: a word that decodes has an op outside R305's ranges and no must-be-zero bit set (`op_of_decode`). -/
theorem illegalWordsRaiseIllegalOp : Obligations.IllegalWordsRaiseIllegalOp := by
  intro w s hp hc hillegal
  refine step_of_not_decode hp hc fun i hi => ?_
  obtain ⟨m, hm, hzero⟩ := op_of_decode hi
  have hassigned := op_assigned_of_mem_opMasks _ hm
  rcases hillegal with h | h | h | h | ⟨p, hrow, hop, hset⟩
  · exact hassigned (.inl h)
  · exact hassigned (.inr (.inl h))
  · exact hassigned (.inr (.inr (.inl h)))
  · exact hassigned (.inr (.inr (.inr h)))
  · have hmask : m = p.2 := mask_eq_of_op_eq _ hm p hrow hop
    exact hset (hmask ▸ hzero)

end Sys2Proof

/-! The representation commands (40_representation.md R400 to R409): CLR, COPY, CONST, SETW and SETLEN each leave what
one normalised write leaves, or raise their error. -/

namespace Sys2Proof.Machine

/-! ### The normalised write of a command (R104) -/

/-- A command whose whole effect is the normalised write of a value that fits. -/
theorem holds_sameExcept_of_writeReg {i : Instr} {s : State} {d : RegIx} {v : Nat}
    (h : exec i s = .next (s.writeReg d v)) (hv : nlimbs v ≤ s.maxLimbs) :
    ∃ t, exec i s = .next t ∧ t.Holds d v ∧ SameExcept [d] s t :=
  ⟨_, h, writeReg_holds s d v hv, writeReg_sameExcept s d v⟩

/-- A clean register is the normalised write of its own value (R102, R104). -/
theorem BigReg.Ok.eq_ofNat_val {m : Nat} {r : BigReg} (h : r.Ok m) (hc : r.dirty = false) :
    r = BigReg.ofNat m r.val := by
  have hlimbs : r.limbs = limbsOf m r.val := by
    refine List.ext_getElem (by rw [h.limbs_length, limbsOf_length]) fun k hk hk' => ?_
    have hkm : k < m := h.limbs_length ▸ hk
    rw [← List.getD_eq_getElem _ 0 hk, ← List.getD_eq_getElem _ 0 hk', limbsOf_getD _ _ _ hkm]
    exact h.limb_eq hc k hkm
  rw [BigReg.ofNat, h.nlimbs_val hc, ← hlimbs, ← hc]

/-! ### CLR (R400) -/

theorem exec_clr (rd : RegIx) (s : State) : exec (.clr rd) s = .next (s.writeReg rd 0) := rfl

/-- Settles O36: 0 needs no limb, so it fits in every state. -/
theorem clrWritesZero : Obligations.ClrWritesZero := fun s rd =>
  holds_sameExcept_of_writeReg (exec_clr rd s) (Nat.zero_le _)

/-! ### COPY (R402) -/

theorem exec_copy_of_dirty {s : State} {rs1 : RegIx} (h : s.dirty rs1 = true) (rd : RegIx) :
    exec (.copy rd rs1) s = .next { s with err := some .dirtyOperand } :=
  if_pos ((s.anyDirty_eq_true _).2 ⟨rs1, by simp, h⟩)

theorem exec_copy_of_clean {s : State} {rs1 : RegIx} (h : s.dirty rs1 = false) (rd : RegIx) :
    exec (.copy rd rs1) s = .next (s.writeReg rd (s.val rs1)) :=
  if_neg (by simp [State.anyDirty, h])

/-- Settles O37: the value of a clean source fits, and its normalised write is the source itself. -/
theorem copyWritesTheSourceValue : Obligations.CopyWritesTheSourceValue := by
  intro s rd rs1 hs
  refine ⟨fun hd => exec_copy_of_dirty hd rd, fun hc => ?_⟩
  have hreg : (s.writeReg rd (s.val rs1)).reg rd = s.reg rs1 := by
    rw [reg_writeReg_self]
    exact ((hs.regs_ok rs1).eq_ofNat_val hc).symm
  exact ⟨_, exec_copy_of_clean hc rd, writeReg_holds s rd _ (hs.nlimbs_val_le hc), hreg, writeReg_sameExcept s rd _⟩

/-! ### CONST (R404) -/

/-- Entry k of the constant ROM is k, for k from 0 to 10 (10_state.md R118). -/
theorem constantRom_eq_range : constantRom = List.range 11 := by decide

theorem exec_const_of_gt {k : Nat} (h : 10 < k) (rd : RegIx) (s : State) :
    exec (.const rd k) s = .next { s with err := some .badOperand } := by
  have hrom : constantRom[k]? = none := by simpa [constantRom_eq_range] using Nat.succ_le_of_lt h
  simp [exec, execConst, hrom, raise]

theorem exec_const_of_le {k : Nat} (h : k ≤ 10) (rd : RegIx) (s : State) :
    exec (.const rd k) s = .next (s.writeReg rd k) := by
  have hrom : constantRom[k]? = some k := by
    rw [constantRom_eq_range, List.getElem?_range (by omega)]
  simp [exec, execConst, hrom]

/-- Settles O38: the ROM has an entry for k exactly when k ≤ 10, and the entry fits in one limb. -/
theorem constWritesRomValue : Obligations.ConstWritesRomValue := by
  intro s rd k hs
  refine ⟨fun hk => exec_const_of_gt hk rd s, fun hk => holds_sameExcept_of_writeReg (exec_const_of_le hk rd s) ?_⟩
  exact (nlimbs_mono hk).trans (hs.nlimbs_word_le 10)

/-! ### SETW (R406) -/

theorem exec_setw (rd : RegIx) (s : State) : exec (.setw rd) s = .next (s.writeReg rd s.data.toNat) := rfl

/-- Settles O39: a word fits in one limb. -/
theorem setwWritesData : Obligations.SetwWritesData := fun s rd hs =>
  holds_sameExcept_of_writeReg (exec_setw rd s) (hs.nlimbs_word_le s.data)

/-! ### SETLEN (R408) -/

theorem exec_setlen_of_gt {s : State} (h : s.maxLimbs < s.data.toNat) (rd : RegIx) :
    exec (.setlen rd) s = .next { s with err := some .badOperand } := if_pos h

/-- SETLEN is the normalised write of the value of the limbs below DATA, whether or not the register is dirty. -/
theorem exec_setlen_of_le {s : State} (hs : s.Inv) (h : s.data.toNat ≤ s.maxLimbs) (rd : RegIx) :
    exec (.setlen rd) s = .next (s.writeReg rd (limbsVal ((s.reg rd).limbs.take s.data.toNat))) := by
  have hnorm := BigReg.normalise_eq _ _ _ (hs.regs_ok rd).limbs_length h
  rw [State.writeReg, ← hnorm]
  exact if_neg (Nat.not_lt.2 h)

/-- The value of the first `n` limbs as their weighted sum (10_state.md R101). -/
theorem BigReg.sum_limb_eq_limbsVal_take (r : BigReg) {n : Nat} (h : n ≤ r.limbs.length) :
    ∑ k ∈ Finset.range n, (r.limb k).toNat * 2 ^ (32 * k) = limbsVal (r.limbs.take n) := by
  simp only [pow_mul]
  exact (limbsVal_take_eq_sum _ _ h).symm

/-- The limbs below `n` stay and the others become 0. -/
theorem BigReg.limb_ofNat_take {m k : Nat} (r : BigReg) (n : Nat) (hk : k < m) :
    (BigReg.ofNat m (limbsVal (r.limbs.take n))).limb k = if k < n then r.limb k else 0 := by
  rw [BigReg.ofNat_limb _ _ _ hk, limbAt_limbsVal]
  split
  case isTrue hn => simp [BigReg.limb, hn]
  case isFalse hn => simp [hn]

/-- Settles O40: SETLEN is one normalised write, from which each clause follows. -/
theorem setlenNormalisesRegister : Obligations.SetlenNormalisesRegister := by
  intro s rd hs
  refine ⟨fun hn => exec_setlen_of_gt hn rd, fun hn => ?_⟩
  have hlimbs : s.data.toNat ≤ (s.reg rd).limbs.length := by rwa [(hs.regs_ok rd).limbs_length]
  have hlen := BigReg.nlimbs_take_le s.data.toNat (s.reg rd)
  have hfit := hlen.trans hn
  refine ⟨_, exec_setlen_of_le hs hn rd, ?_, fun k hk => ?_, fun k hk hm => ?_, ?_, ?_, writeReg_sameExcept s rd _⟩
  · rw [BigReg.sum_limb_eq_limbsVal_take _ hlimbs]
    exact writeReg_holds s rd _ hfit
  · rw [reg_writeReg_self, BigReg.limb_ofNat_take _ _ (by omega), if_pos hk]
  · rw [reg_writeReg_self, BigReg.limb_ofNat_take _ _ hm, if_neg (by omega)]
  · rw [State.len, reg_writeReg_self]
    exact hlen
  · rw [State.len, reg_writeReg_self]
    exact ((BigReg.ofNat_ok _ _ hfit).normalised rfl).top

end Sys2Proof.Machine

/-! The comparator commands (41_comparator.md R420 to R425): CMP writes the order of the two values, TSTZ the zero
test, each from clean sources only. -/

namespace Sys2Proof.Machine

/-! ### Two source registers (R106) -/

theorem State.anyDirty_pair_eq_true (s : State) (i j : RegIx) :
    s.anyDirty [i, j] = true ↔ s.dirty i = true ∨ s.dirty j = true := by
  simp [State.anyDirty]

theorem State.anyDirty_pair_eq_false (s : State) (i j : RegIx) :
    s.anyDirty [i, j] = false ↔ s.dirty i = false ∧ s.dirty j = false := by
  simp [State.anyDirty]

/-! ### CMP (R420 to R422) -/

theorem exec_cmp_of_dirty {s : State} {rs1 rs2 : RegIx} (h : s.dirty rs1 = true ∨ s.dirty rs2 = true) :
    exec (.cmp rs1 rs2) s = .next { s with err := some .dirtyOperand } :=
  if_pos ((s.anyDirty_pair_eq_true rs1 rs2).2 h)

/-- On clean sources the comparator's answer is the order of the two values. -/
theorem exec_cmp_of_clean {s : State} (hs : s.Inv) {rs1 rs2 : RegIx} (h1 : s.dirty rs1 = false)
    (h2 : s.dirty rs2 = false) :
    exec (.cmp rs1 rs2) s
      = .next { s with flags := s.flags.withComparison (compare (s.val rs1) (s.val rs2)) } := by
  have hclean := (s.anyDirty_pair_eq_false rs1 rs2).2 ⟨h1, h2⟩
  rw [← hs.compare_eq h1 h2]
  exact if_neg (ne_true_of_eq_false hclean)

/-- The five bits CMP writes for the order of two numbers; Z and NZ stay. -/
theorem Flags.withComparison_compare (f : Flags) (a b : Nat) :
    f.withComparison (compare a b) =
      { f with eq := decide (a = b), lt := decide (a < b), gt := decide (a > b), le := decide (a ≤ b),
               ge := decide (a ≥ b) } := by
  rcases Nat.lt_trichotomy a b with h | rfl | h
  · rw [Nat.compare_eq_lt.2 h]
    simp [Flags.withComparison, h, h.ne, h.le, h.not_gt, h.not_ge]
  · simp [Flags.withComparison]
  · rw [Nat.compare_eq_gt.2 h]
    simp [Flags.withComparison, h, h.ne', h.le, h.not_gt, h.not_ge]

/-- Settles O41: on clean registers the comparator orders the values (R422), and its bits spell that order. -/
theorem cmpWritesTheOrder : Obligations.CmpWritesTheOrder := by
  intro s rs1 rs2 hs
  refine ⟨exec_cmp_of_dirty, fun h1 h2 => ?_⟩
  rw [exec_cmp_of_clean hs h1 h2, Flags.withComparison_compare]

/-! ### TSTZ (R424) -/

theorem exec_tstz_of_dirty {s : State} {rs1 : RegIx} (h : s.dirty rs1 = true) :
    exec (.tstz rs1) s = .next { s with err := some .dirtyOperand } :=
  if_pos ((s.anyDirty_eq_true _).2 ⟨rs1, by simp, h⟩)

theorem exec_tstz_of_clean {s : State} {rs1 : RegIx} (h : s.dirty rs1 = false) :
    exec (.tstz rs1) s = .next { s with flags := s.flags.withZeroTest (s.len rs1 == 0) } :=
  if_neg (by simp [State.anyDirty, h])

/-- The two bits TSTZ writes for the length `n`; the comparison bits stay. -/
theorem Flags.withZeroTest_beq_zero (f : Flags) (n : Nat) :
    f.withZeroTest (n == 0) = { f with z := decide (n = 0), nz := decide (n ≠ 0) } := by
  cases n <;> rfl

/-- Settles O42: Z is LEN = 0, and a normalised register of length 0 is one of value 0 (R102). -/
theorem tstzWritesTheZeroTest : Obligations.TstzWritesTheZeroTest := by
  intro s rs1
  refine ⟨exec_tstz_of_dirty, fun hc => ?_, fun hs hc => hs.len_eq_zero_iff hc⟩
  rw [exec_tstz_of_clean hc, Flags.withZeroTest_beq_zero]

end Sys2Proof.Machine

/-! The adder commands (42_add_sub.md R440 to R449): ADD, SUB and MUL as conditions on the values of the two sources,
with the limbs of the datapaths gone, and from these the laws that join them. -/

namespace Sys2Proof.Machine

/-- A value fits in `n` limbs when it is below 2^(32·n) (10_state.md R101). -/
theorem nlimbs_le_iff_lt_two_pow (v n : Nat) : nlimbs v ≤ n ↔ v < 2 ^ (32 * n) := by
  rw [nlimbs_le_iff, radix, ← pow_mul]

theorem State.anyDirty_pair_comm (s : State) (i j : RegIx) : s.anyDirty [i, j] = s.anyDirty [j, i] := by
  simp [State.anyDirty, Bool.or_comm]

/-- The length of a clean register's limbs is the length its value needs (10_state.md R102). -/
theorem State.Inv.live_length {s : State} (hs : s.Inv) {i : RegIx} (hc : s.dirty i = false) :
    (s.live i).length = nlimbs (s.val i) := (hs.live_noLeadingZero hc).nlimbs_val.symm

/-! ### ADD (R440) -/

/-- The capacity test on the adder's limbs is a test of the sum, since the sum of normalised operands has no leading
zero (R443). -/
theorem exec_add_eq {s : State} (hs : s.Inv) (rd rs1 rs2 : RegIx) :
    exec (.add rd rs1 rs2) s =
      if s.anyDirty [rs1, rs2] = true then raise .dirtyOperand s
      else if s.maxLimbs < nlimbs (s.val rs1 + s.val rs2) then raise .capacity s
      else .next (s.writeReg rd (s.val rs1 + s.val rs2)) := by
  have hval : limbsVal (adder (s.live rs1) (s.live rs2)) = s.val rs1 + s.val rs2 := adder_val _ _
  rw [exec, execAdd]
  split
  case isTrue => rfl
  case isFalse hd =>
    obtain ⟨h1, h2⟩ := (s.anyDirty_pair_eq_false rs1 rs2).1 (Bool.not_eq_true _ ▸ hd)
    have hlen : (adder (s.live rs1) (s.live rs2)).length = nlimbs (s.val rs1 + s.val rs2) :=
      adder_length _ _ (hs.live_noLeadingZero h1) (hs.live_noLeadingZero h2)
    simp only [hlen, hval]

theorem exec_add_of_dirty {s : State} {rs1 rs2 : RegIx} (h : s.dirty rs1 = true ∨ s.dirty rs2 = true) (rd : RegIx) :
    exec (.add rd rs1 rs2) s = .next { s with err := some .dirtyOperand } :=
  if_pos ((s.anyDirty_pair_eq_true rs1 rs2).2 h)

section
variable {s : State} (hs : s.Inv) {rs1 rs2 : RegIx} (rd : RegIx) (h1 : s.dirty rs1 = false) (h2 : s.dirty rs2 = false)
include hs h1 h2

theorem exec_add_of_overflow (h : 2 ^ (32 * s.maxLimbs) ≤ s.val rs1 + s.val rs2) :
    exec (.add rd rs1 rs2) s = .next { s with err := some .capacity } := by
  have hclean := (s.anyDirty_pair_eq_false rs1 rs2).2 ⟨h1, h2⟩
  have hbig : s.maxLimbs < nlimbs (s.val rs1 + s.val rs2) := by
    rwa [← Nat.not_le, nlimbs_le_iff_lt_two_pow, Nat.not_lt]
  rw [exec_add_eq hs, if_neg (ne_true_of_eq_false hclean), if_pos hbig, raise]

theorem exec_add_of_lt (h : s.val rs1 + s.val rs2 < 2 ^ (32 * s.maxLimbs)) :
    exec (.add rd rs1 rs2) s = .next (s.writeReg rd (s.val rs1 + s.val rs2)) := by
  have hclean := (s.anyDirty_pair_eq_false rs1 rs2).2 ⟨h1, h2⟩
  have hfit := (nlimbs_le_iff_lt_two_pow _ _).2 h
  rw [exec_add_eq hs, if_neg (ne_true_of_eq_false hclean), if_neg (Nat.not_lt.2 hfit)]

end

/-- Settles O43: the three cases of the adder; a sum below 2^(32·MAX_LIMBS) fits in the destination. -/
theorem addWritesTheSum : Obligations.AddWritesTheSum := by
  intro s rd rs1 rs2 hs
  refine ⟨fun hd => exec_add_of_dirty hd rd, fun h1 h2 => ⟨exec_add_of_overflow hs rd h1 h2, fun hlt => ?_⟩⟩
  exact holds_sameExcept_of_writeReg (exec_add_of_lt hs rd h1 h2 hlt) ((nlimbs_le_iff_lt_two_pow _ _).2 hlt)

/-! ### SUB (R446) -/

/-- The comparator's test is a test of the values (R422), and a minuend that is not less has the limbs for the exact
difference (R448). -/
theorem exec_sub_eq {s : State} (hs : s.Inv) (rd rs1 rs2 : RegIx) :
    exec (.sub rd rs1 rs2) s =
      if s.anyDirty [rs1, rs2] = true then raise .dirtyOperand s
      else if s.val rs1 < s.val rs2 then raise .subUnderflow s
      else .next (s.writeReg rd (s.val rs1 - s.val rs2)) := by
  rw [exec, execSub]
  split
  case isTrue => rfl
  case isFalse hd =>
    obtain ⟨h1, h2⟩ := (s.anyDirty_pair_eq_false rs1 rs2).1 (Bool.not_eq_true _ ▸ hd)
    simp only [hs.compare_eq h1 h2, Nat.compare_eq_lt]
    split
    case isTrue => rfl
    case isFalse hlt =>
      have hle : s.val rs2 ≤ s.val rs1 := Nat.not_lt.1 hlt
      have hlen : (s.live rs2).length ≤ (s.live rs1).length := by
        rw [hs.live_length h1, hs.live_length h2]
        exact nlimbs_mono hle
      have hval : limbsVal (subtractor (s.live rs1) (s.live rs2)) = s.val rs1 - s.val rs2 :=
        subtractor_val _ _ hlen hle
      rw [hval]

theorem exec_sub_of_dirty {s : State} {rs1 rs2 : RegIx} (h : s.dirty rs1 = true ∨ s.dirty rs2 = true) (rd : RegIx) :
    exec (.sub rd rs1 rs2) s = .next { s with err := some .dirtyOperand } :=
  if_pos ((s.anyDirty_pair_eq_true rs1 rs2).2 h)

section
variable {s : State} (hs : s.Inv) {rs1 rs2 : RegIx} (rd : RegIx) (h1 : s.dirty rs1 = false) (h2 : s.dirty rs2 = false)
include hs h1 h2

theorem exec_sub_of_lt (h : s.val rs1 < s.val rs2) :
    exec (.sub rd rs1 rs2) s = .next { s with err := some .subUnderflow } := by
  have hclean := (s.anyDirty_pair_eq_false rs1 rs2).2 ⟨h1, h2⟩
  rw [exec_sub_eq hs, if_neg (ne_true_of_eq_false hclean), if_pos h, raise]

theorem exec_sub_of_le (h : s.val rs2 ≤ s.val rs1) :
    exec (.sub rd rs1 rs2) s = .next (s.writeReg rd (s.val rs1 - s.val rs2)) := by
  have hclean := (s.anyDirty_pair_eq_false rs1 rs2).2 ⟨h1, h2⟩
  rw [exec_sub_eq hs, if_neg (ne_true_of_eq_false hclean), if_neg (Nat.not_lt.2 h)]

end

/-- Settles O44: the three cases of the subtractor; the difference fits where the minuend does. -/
theorem subWritesTheDifference : Obligations.SubWritesTheDifference := by
  intro s rd rs1 rs2 hs
  refine ⟨fun hd => exec_sub_of_dirty hd rd, fun h1 h2 => ⟨exec_sub_of_lt hs rd h1 h2, fun hle => ?_⟩⟩
  have hfit := (nlimbs_mono (Nat.sub_le (s.val rs1) (s.val rs2))).trans (hs.nlimbs_val_le h1)
  exact holds_sameExcept_of_writeReg (exec_sub_of_le hs rd h1 h2 hle) hfit

/-! ### Laws (R449, 43_multiply.md R464) -/

/-- Settles O50: after the ADD the state is again of the invariant, `rd` holds a + b and `rs2` still b, so the SUB
writes a + b − b. -/
theorem subUndoesAdd : Obligations.SubUndoesAdd := by
  intro s rd re rs1 rs2 hs h1 h2 hne hlt
  have hadd := exec_add_of_lt hs rd h1 h2 hlt
  have hfit := (nlimbs_le_iff_lt_two_pow _ _).2 hlt
  have hsum := writeReg_holds s rd _ hfit
  have hinv := hs.writeReg rd _ hfit
  have hkeep := reg_writeReg_ne s rd rs2 (s.val rs1 + s.val rs2) hne.symm
  have hclean : (s.writeReg rd (s.val rs1 + s.val rs2)).dirty rs2 = false := (congrArg BigReg.dirty hkeep).trans h2
  have hval : (s.writeReg rd (s.val rs1 + s.val rs2)).val rs2 = s.val rs2 := congrArg BigReg.val hkeep
  have hle : s.val rs2 ≤ s.val rs1 + s.val rs2 := Nat.le_add_left _ _
  have hsub := exec_sub_of_le hinv re hsum.clean hclean (by rwa [hsum.val_eq, hval])
  rw [hsum.val_eq, hval, Nat.add_sub_cancel] at hsub
  exact ⟨_, _, hadd, hsub, writeReg_holds _ re _ (hs.nlimbs_val_le h1)⟩

/-- The product array is trimmed to the product's own length, so its capacity test is a test of the product
(43_multiply.md R462), on every state. -/
theorem exec_mul_eq (s : State) (rd rs1 rs2 : RegIx) :
    exec (.mul rd rs1 rs2) s =
      if s.anyDirty [rs1, rs2] = true then raise .dirtyOperand s
      else if s.maxLimbs < nlimbs (s.val rs1 * s.val rs2) then raise .capacity s
      else .next (s.writeReg rd (s.val rs1 * s.val rs2)) := by
  have hval : limbsVal (productArray (s.live rs1) (s.live rs2)) = s.val rs1 * s.val rs2 := productArray_val _ _
  have hlen : (productArray (s.live rs1) (s.live rs2)).length = nlimbs (s.val rs1 * s.val rs2) :=
    productArray_length _ _
  simp only [exec, execMul, hval, hlen]

/-- Settles O51: the dirty test, the sum and the product are symmetric in the two sources. -/
theorem addAndMulCommute : Obligations.AddAndMulCommute := by
  intro s rd rs1 rs2 hs
  constructor
  · rw [exec_add_eq hs, exec_add_eq hs, s.anyDirty_pair_comm, Nat.add_comm]
  · rw [exec_mul_eq, exec_mul_eq, s.anyDirty_pair_comm, Nat.mul_comm]

end Sys2Proof.Machine

/-! The multiplier command (43_multiply.md R460 to R464): the three cases of MUL, each with the condition on the values
of the sources under which it is taken. -/

namespace Sys2Proof.Machine

/-! ### MUL (R460) -/

theorem exec_mul_of_dirty {s : State} {rs1 rs2 : RegIx} (h : s.dirty rs1 = true ∨ s.dirty rs2 = true) (rd : RegIx) :
    exec (.mul rd rs1 rs2) s = .next { s with err := some .dirtyOperand } := by
  have hdirty := (s.anyDirty_pair_eq_true rs1 rs2).2 h
  rw [exec_mul_eq, if_pos hdirty, raise]

section
variable {s : State} {rs1 rs2 : RegIx} (rd : RegIx) (h1 : s.dirty rs1 = false) (h2 : s.dirty rs2 = false)
include h1 h2

theorem exec_mul_of_overflow (h : s.maxLimbs < nlimbs (s.val rs1 * s.val rs2)) :
    exec (.mul rd rs1 rs2) s = .next { s with err := some .capacity } := by
  have hclean := (s.anyDirty_pair_eq_false rs1 rs2).2 ⟨h1, h2⟩
  rw [exec_mul_eq, if_neg (ne_true_of_eq_false hclean), if_pos h, raise]

theorem exec_mul_of_fits (h : nlimbs (s.val rs1 * s.val rs2) ≤ s.maxLimbs) :
    exec (.mul rd rs1 rs2) s = .next (s.writeReg rd (s.val rs1 * s.val rs2)) := by
  have hclean := (s.anyDirty_pair_eq_false rs1 rs2).2 ⟨h1, h2⟩
  rw [exec_mul_eq, if_neg (ne_true_of_eq_false hclean), if_neg (Nat.not_lt.2 h)]

end

/-- Settles O45: the three cases of the multiplier. The trimmed product array makes its capacity test a test of the
product's own length, so the case that writes is the case in which the product fits. -/
theorem mulWritesTheProduct : Obligations.MulWritesTheProduct := by
  intro s rd rs1 rs2 _
  refine ⟨fun hd => exec_mul_of_dirty hd rd, fun h1 h2 => ⟨exec_mul_of_overflow rd h1 h2, fun hfit => ?_⟩⟩
  exact holds_sameExcept_of_writeReg (exec_mul_of_fits rd h1 h2 hfit) hfit

end Sys2Proof.Machine

/-! The divider command (44_divide.md R480, R481): the four cases of DIV, each with the condition on the named registers
and the values of the sources under which it is taken, and the division identity. -/

namespace Sys2Proof.Machine

/-! ### Two destinations (R480) -/

/-- DIV writes the quotient first and the remainder second, so the first must outlast the second write. -/
theorem State.Holds.writeReg_ne {s : State} {i d : RegIx} {v : Nat} (h : s.Holds i v) (hne : i ≠ d) (w : Nat) :
    (s.writeReg d w).Holds i v := by
  have hreg : (s.writeReg d w).reg i = s.reg i := reg_writeReg_ne s d i w hne
  exact {
    len_eq := (congrArg BigReg.len hreg).trans h.len_eq
    limb_eq := fun k hk => (congrArg (BigReg.limb · k) hreg).trans (h.limb_eq k hk)
    clean := (congrArg BigReg.dirty hreg).trans h.clean
    val_eq := (congrArg BigReg.val hreg).trans h.val_eq }

/-! ### DIV (R480) -/

/-- The divider's answer is the floor quotient and the remainder (R481), and a divisor of LEN 0 is one of value 0
(10_state.md R102). -/
theorem exec_div_eq {s : State} (hs : s.Inv) (rd rs1 rs2 rs3 : RegIx) :
    exec (.div rd rs1 rs2 rs3) s =
      if rd = rs3 then raise .badOperand s
      else if s.anyDirty [rs1, rs2] = true then raise .dirtyOperand s
      else if s.val rs2 = 0 then raise .divZero s
      else .next ((s.writeReg rd (s.val rs1 / s.val rs2)).writeReg rs3 (s.val rs1 % s.val rs2)) := by
  rw [exec, execDiv]
  split
  case isTrue => rfl
  case isFalse =>
    split
    case isTrue => rfl
    case isFalse hd =>
      obtain ⟨h1, h2⟩ := (s.anyDirty_pair_eq_false rs1 rs2).1 (Bool.not_eq_true _ ▸ hd)
      simp only [hs.len_eq_zero_iff h2]
      split
      case isTrue => rfl
      case isFalse h0 =>
        have hlen : s.len rs2 ≠ 0 := mt (hs.len_eq_zero_iff h2).1 h0
        rw [hs.divider_eq h1 h2 hlen]

theorem exec_div_of_eq {rd rs3 : RegIx} (h : rd = rs3) (rs1 rs2 : RegIx) (s : State) :
    exec (.div rd rs1 rs2 rs3) s = .next { s with err := some .badOperand } := if_pos h

section
variable {s : State} {rd rs1 rs2 rs3 : RegIx} (hne : rd ≠ rs3)
include hne

theorem exec_div_of_dirty (h : s.dirty rs1 = true ∨ s.dirty rs2 = true) :
    exec (.div rd rs1 rs2 rs3) s = .next { s with err := some .dirtyOperand } :=
  (if_neg hne).trans (if_pos ((s.anyDirty_pair_eq_true rs1 rs2).2 h))

variable (hs : s.Inv) (h1 : s.dirty rs1 = false) (h2 : s.dirty rs2 = false)
include hs h1 h2

theorem exec_div_of_zero (h0 : s.val rs2 = 0) :
    exec (.div rd rs1 rs2 rs3) s = .next { s with err := some .divZero } := by
  have hclean := (s.anyDirty_pair_eq_false rs1 rs2).2 ⟨h1, h2⟩
  rw [exec_div_eq hs, if_neg hne, if_neg (ne_true_of_eq_false hclean), if_pos h0, raise]

theorem exec_div_of_ne_zero (h0 : s.val rs2 ≠ 0) :
    exec (.div rd rs1 rs2 rs3) s
      = .next ((s.writeReg rd (s.val rs1 / s.val rs2)).writeReg rs3 (s.val rs1 % s.val rs2)) := by
  have hclean := (s.anyDirty_pair_eq_false rs1 rs2).2 ⟨h1, h2⟩
  rw [exec_div_eq hs, if_neg hne, if_neg (ne_true_of_eq_false hclean), if_neg h0]

/-- Quotient and remainder are at most the dividend, so they fit where it does: DIV has no CAPACITY case. -/
theorem exec_div_holds (h0 : s.val rs2 ≠ 0) :
    ∃ t, exec (.div rd rs1 rs2 rs3) s = .next t ∧ t.Holds rd (s.val rs1 / s.val rs2)
      ∧ t.Holds rs3 (s.val rs1 % s.val rs2) ∧ SameExcept [rd, rs3] s t := by
  have hdividend := hs.nlimbs_val_le h1
  have hquot := (nlimbs_mono (Nat.div_le_self (s.val rs1) (s.val rs2))).trans hdividend
  have hrem := (nlimbs_mono (Nat.mod_le (s.val rs1) (s.val rs2))).trans hdividend
  exact ⟨_, exec_div_of_ne_zero hne hs h1 h2 h0, (writeReg_holds s rd _ hquot).writeReg_ne hne _,
    writeReg_holds _ rs3 _ hrem, (writeReg_sameExcept s rd _).trans (writeReg_sameExcept _ rs3 _)⟩

end

/-- Settles O46: the four cases of the divider, in the order of their priority. -/
theorem divWritesQuotientAndRemainder : Obligations.DivWritesQuotientAndRemainder := by
  intro s rd rs1 rs2 rs3 hs
  exact ⟨fun heq => exec_div_of_eq heq rs1 rs2 s, fun hne hd => exec_div_of_dirty hne hd,
    fun hne h1 h2 => ⟨exec_div_of_zero hne hs h1 h2, exec_div_holds hne hs h1 h2⟩⟩

/-! ### The division identity (R481) -/

/-- Settles O49: the pair written is the floor quotient and the remainder, which the identity and the bound determine
(`Nat.div_mod_unique`). -/
theorem divisionIdentity : Obligations.DivisionIdentity := by
  intro s rd rs1 rs2 rs3 hs hne h1 h2 hpos
  obtain ⟨t, ht, hquot, hrem, -⟩ := exec_div_holds hne hs h1 h2 hpos.ne'
  refine ⟨t, ht, ?_, ?_, fun q r hqr hr => ?_⟩
  · rw [hquot.val_eq, hrem.val_eq, Nat.div_add_mod']
  · rw [hrem.val_eq]
    exact Nat.mod_lt _ hpos
  · rw [hquot.val_eq, hrem.val_eq, Nat.div_mod_unique hpos]
    exact ⟨by rw [hqr, Nat.mul_comm, Nat.add_comm], hr⟩

end Sys2Proof.Machine

/-! The modular commands (45_modular.md R510 to R514): the three cases of MOD and of MULMOD, each with the condition on
the values of the sources under which it is taken, and their agreement with DIV and with MUL then MOD. -/

namespace Sys2Proof.Machine

/-! ### The remainder that is written (R510, R512) -/

/-- A remainder is below its divisor and so fits where the divisor does, whatever the dividend: the modular commands
have no CAPACITY case (R513). -/
theorem State.Inv.nlimbs_mod_val_le {s : State} (hs : s.Inv) {i : RegIx} (hc : s.dirty i = false)
    (h0 : s.val i ≠ 0) (v : Nat) : nlimbs (v % s.val i) ≤ s.maxLimbs :=
  (nlimbs_mono (Nat.mod_lt v (Nat.pos_of_ne_zero h0)).le).trans (hs.nlimbs_val_le hc)

/-- The divider on the internal product, which is trimmed and so a legal dividend of any width (R513). -/
theorem State.Inv.divider_productArray_snd {s : State} (hs : s.Inv) {k : RegIx} (hc : s.dirty k = false)
    (hl : s.len k ≠ 0) (i j : RegIx) :
    (divider (productArray (s.live i) (s.live j)) (s.live k)).2 = s.val i * s.val j % s.val k := by
  have hval : limbsVal (productArray (s.live i) (s.live j)) = s.val i * s.val j := productArray_val _ _
  have hdiv := divider_spec _ _ (productArray_noLeadingZero (s.live i) (s.live j)) (hs.live_noLeadingZero hc)
    (hs.live_ne_nil hl)
  rw [hdiv, hval]
  rfl

/-! ### MOD (R510) -/

theorem exec_mod_of_dirty {s : State} {rs1 rs2 : RegIx} (h : s.dirty rs1 = true ∨ s.dirty rs2 = true) (rd : RegIx) :
    exec (.mod rd rs1 rs2) s = .next { s with err := some .dirtyOperand } :=
  if_pos ((s.anyDirty_pair_eq_true rs1 rs2).2 h)

section
variable {s : State} (hs : s.Inv) {rs1 rs2 : RegIx} (rd : RegIx) (h1 : s.dirty rs1 = false) (h2 : s.dirty rs2 = false)
include hs h1 h2

theorem exec_mod_of_zero (h0 : s.val rs2 = 0) :
    exec (.mod rd rs1 rs2) s = .next { s with err := some .divZero } := by
  have hclean := (s.anyDirty_pair_eq_false rs1 rs2).2 ⟨h1, h2⟩
  have hlen : s.len rs2 = 0 := (hs.len_eq_zero_iff h2).2 h0
  rw [exec, execMod, if_neg (ne_true_of_eq_false hclean), if_pos hlen, raise]

theorem exec_mod_of_ne_zero (h0 : s.val rs2 ≠ 0) :
    exec (.mod rd rs1 rs2) s = .next (s.writeReg rd (s.val rs1 % s.val rs2)) := by
  have hclean := (s.anyDirty_pair_eq_false rs1 rs2).2 ⟨h1, h2⟩
  have hlen : s.len rs2 ≠ 0 := mt (hs.len_eq_zero_iff h2).1 h0
  rw [exec, execMod, if_neg (ne_true_of_eq_false hclean), if_neg hlen, hs.divider_eq h1 h2 hlen]

end

/-- Settles O47: the three cases of MOD; the remainder is below the modulus, so it fits. -/
theorem modWritesTheRemainder : Obligations.ModWritesTheRemainder := by
  intro s rd rs1 rs2 hs
  refine ⟨fun hd => exec_mod_of_dirty hd rd, fun h1 h2 => ⟨exec_mod_of_zero hs rd h1 h2, fun h0 => ?_⟩⟩
  exact holds_sameExcept_of_writeReg (exec_mod_of_ne_zero hs rd h1 h2 h0) (hs.nlimbs_mod_val_le h2 h0 _)

/-! ### MULMOD (R512) -/

theorem State.anyDirty_triple_eq_true (s : State) (i j k : RegIx) :
    s.anyDirty [i, j, k] = true ↔ s.dirty i = true ∨ s.dirty j = true ∨ s.dirty k = true := by
  simp [State.anyDirty]

theorem State.anyDirty_triple_eq_false (s : State) (i j k : RegIx) :
    s.anyDirty [i, j, k] = false ↔ s.dirty i = false ∧ s.dirty j = false ∧ s.dirty k = false := by
  simp [State.anyDirty]

theorem exec_mulmod_of_dirty {s : State} {rs1 rs2 rs3 : RegIx}
    (h : s.dirty rs1 = true ∨ s.dirty rs2 = true ∨ s.dirty rs3 = true) (rd : RegIx) :
    exec (.mulmod rd rs1 rs2 rs3) s = .next { s with err := some .dirtyOperand } :=
  if_pos ((s.anyDirty_triple_eq_true rs1 rs2 rs3).2 h)

section
variable {s : State} (hs : s.Inv) {rs1 rs2 rs3 : RegIx} (rd : RegIx) (h1 : s.dirty rs1 = false)
  (h2 : s.dirty rs2 = false) (h3 : s.dirty rs3 = false)
include hs h1 h2 h3

theorem exec_mulmod_of_zero (h0 : s.val rs3 = 0) :
    exec (.mulmod rd rs1 rs2 rs3) s = .next { s with err := some .divZero } := by
  have hclean := (s.anyDirty_triple_eq_false rs1 rs2 rs3).2 ⟨h1, h2, h3⟩
  have hlen : s.len rs3 = 0 := (hs.len_eq_zero_iff h3).2 h0
  rw [exec, execMulmod, if_neg (ne_true_of_eq_false hclean), if_pos hlen, raise]

theorem exec_mulmod_of_ne_zero (h0 : s.val rs3 ≠ 0) :
    exec (.mulmod rd rs1 rs2 rs3) s = .next (s.writeReg rd (s.val rs1 * s.val rs2 % s.val rs3)) := by
  have hclean := (s.anyDirty_triple_eq_false rs1 rs2 rs3).2 ⟨h1, h2, h3⟩
  have hlen : s.len rs3 ≠ 0 := mt (hs.len_eq_zero_iff h3).1 h0
  have hrem := hs.divider_productArray_snd h3 hlen rs1 rs2
  rw [exec, execMulmod, if_neg (ne_true_of_eq_false hclean), if_neg hlen, ← hrem]

end

/-- Settles O48: the three cases of MULMOD. The product itself is never tested against MAX_LIMBS, and the remainder is
below the modulus, so it fits. -/
theorem mulmodWritesTheReducedProduct : Obligations.MulmodWritesTheReducedProduct := by
  intro s rd rs1 rs2 rs3 hs
  refine ⟨fun hd => exec_mulmod_of_dirty hd rd, fun h1 h2 h3 => ⟨exec_mulmod_of_zero hs rd h1 h2 h3, fun h0 => ?_⟩⟩
  exact holds_sameExcept_of_writeReg (exec_mulmod_of_ne_zero hs rd h1 h2 h3 h0) (hs.nlimbs_mod_val_le h3 h0 _)

/-! ### Agreement with DIV, and with MUL then MOD (R511 item 6, R513) -/

/-- Of two normalised writes to one register the second alone remains. -/
theorem writeReg_writeReg_self (s : State) (d : RegIx) (v w : Nat) :
    (s.writeReg d v).writeReg d w = s.writeReg d w := by
  simp [State.writeReg, State.setReg]

/-- A clean register of the invariant is as a normalised write of its value leaves it (10_state.md R102, R104). -/
theorem State.Inv.holds_val {s : State} (hs : s.Inv) {i : RegIx} (hc : s.dirty i = false) : s.Holds i (s.val i) :=
  State.holds_of_reg ((hs.regs_ok i).eq_ofNat_val hc) (hs.nlimbs_val_le hc)

/-- MOD of a product that stands in `rd` finds the modulus `rs3` ≠ `rd` as it was, and overwrites the product. -/
theorem exec_mod_of_product {s : State} (hs : s.Inv) {rd rs3 : RegIx} (h3 : s.dirty rs3 = false)
    (h0 : s.val rs3 ≠ 0) (hne : rd ≠ rs3) {p : Nat} (hfit : nlimbs p ≤ s.maxLimbs) :
    exec (.mod rd rd rs3) (s.writeReg rd p) = .next (s.writeReg rd (p % s.val rs3)) := by
  have hproduct := writeReg_holds s rd p hfit
  have hmodulus := (hs.holds_val h3).writeReg_ne hne.symm p
  have hmod := exec_mod_of_ne_zero (hs.writeReg rd p hfit) rd hproduct.clean hmodulus.clean (by rwa [hmodulus.val_eq])
  rwa [hproduct.val_eq, hmodulus.val_eq, writeReg_writeReg_self] at hmod

/-- Settles O52: DIV and MOD both end with the normalised write of a mod b. MUL leaves a·b in `rd`, where MOD replaces
it by (a·b) mod m, which is the one write of MULMOD. -/
theorem remainderCommandsAgree : Obligations.RemainderCommandsAgree := by
  constructor
  · intro s t u rd re rf rs1 rs2 hs hne h1 h2 h0 ht hu
    cases (exec_div_of_ne_zero hne hs h1 h2 h0).symm.trans ht
    cases (exec_mod_of_ne_zero hs rf h1 h2 h0).symm.trans hu
    rw [reg_writeReg_self, reg_writeReg_self, writeReg_maxLimbs]
  · intro s t u v rd rs1 rs2 rs3 hs h1 h2 h3 h0 hne hfit ht hu hv
    cases (exec_mul_of_fits rd h1 h2 hfit).symm.trans ht
    cases (exec_mod_of_product hs h3 h0 hne hfit).symm.trans hu
    cases (exec_mulmod_of_ne_zero hs rd h1 h2 h3 h0).symm.trans hv
    rfl

end Sys2Proof.Machine

/-! The system commands (46_system.md R530, R531): NOP and CLRERR as writes to CMD, one branch of the command path
(60_exceptions.md R605) each, and the malformed words of their two ops. -/

namespace Sys2Proof.Machine

/-! ### A write to CMD (60_exceptions.md R606 to R609) -/

theorem issue_of_busy {s : State} (hp : s.pend ≠ none) (w : Word) : issue w s = .next (overrun s) :=
  if_pos (busy_of_pend hp)

theorem issue_clrerr {s : State} (hp : s.pend = none) : issue clrerrWord s = .next (clearErrors s) := by
  rw [issue, not_busy_of_pend hp, if_neg Bool.false_ne_true, if_pos rfl]
  rfl

section
variable {s : State} {w : Word} (hp : s.pend = none) (hw : w ≠ clrerrWord)
include hp hw

theorem issue_of_error (he : s.err ≠ none ∨ s.ovr = true) : issue w s = .next (reject s) := by
  have herror : (s.err.isSome || s.ovr) = true := by simpa [Option.isSome_iff_ne_none] using he
  rw [issue, not_busy_of_pend hp, if_neg Bool.false_ne_true, if_neg hw, if_pos herror]

theorem issue_of_no_error (he : s.err = none) (ho : s.ovr = false) : issue w s = .next (accept w s) := by
  have hnone : ¬ (s.err.isSome || s.ovr) = true := by simp [he, ho]
  rw [issue, not_busy_of_pend hp, if_neg Bool.false_ne_true, if_neg hw, if_neg hnone]

end

section
variable {s : State} {w : Word} {rest : List HostEvent} (h : s.HostTurn (.write 4 0 w) rest)
include h

/-- The host's CMD write is the issue of its word, answered as done (log entry 9). -/
theorem step_of_issue {t : State} (ht : issue w (s.taken rest) = .next t) :
    step s = .next { t with bus := some .done } := by
  rw [step_of_writeCmd h, ht]
  rfl

theorem step_of_rejected (hp : s.pend = none) (hw : w ≠ clrerrWord) (he : s.err ≠ none ∨ s.ovr = true) :
    step s = .next { s.taken rest with rej := true, bus := some .done } :=
  step_of_issue h (issue_of_error (s := s.taken rest) hp hw he)

theorem step_of_accepted (hp : s.pend = none) (hw : w ≠ clrerrWord) (he : s.err = none) (ho : s.ovr = false) :
    ∃ t, step s = .next t ∧ t.pend = some w :=
  ⟨_, step_of_issue h (issue_of_no_error (s := s.taken rest) hp hw he ho), rfl⟩

end

/-! ### Commands without a field (30_encoding.md R302) -/

/-- Where the row of an op keeps every bit, the op with zeros below it is its one word. -/
theorem decode_ne_ok_of_fieldless {w : Word} {op : Nat} (hrow : (op, 0xFFFFFFFF) ∈ opMasks)
    (hop : w.toNat / 2 ^ 24 = op) (hw : w ≠ BitVec.ofNat 32 (op * 2 ^ 24)) (i : Instr) : decode w ≠ .ok i := by
  intro hi
  obtain ⟨m, hm, hzero⟩ := op_of_decode hi
  obtain rfl : m = 0xFFFFFFFF := mask_eq_of_op_eq _ hm _ hrow hop
  have hlow : w.toNat % 2 ^ 24 = 0 := by
    rw [← Nat.and_two_pow_sub_one_eq_mod]
    exact congrArg BitVec.toNat hzero
  refine hw (BitVec.eq_of_toNat_eq ?_)
  rw [BitVec.toNat_ofNat]
  have := w.isLt
  omega

/-! ### NOP (R530) -/

theorem exec_nop (s : State) : exec .nop s = .next s := rfl

theorem decode_nop : decode 0x01000000 = .ok .nop := decode_of_encode_eq rfl rfl

theorem runWord_nop (s : State) : runWord 0x01000000 s = .next s := by
  rw [runWord, decode_nop]
  exact exec_nop s

/-- Settles O34: NOP's word decodes to the command that does nothing, and it is not CLRERR's, so a write of it is
rejected or accepted by the error state alone. -/
theorem nopOnlyClearsBusy : Obligations.NopOnlyClearsBusy := by
  refine ⟨exec_nop, fun s hp hc => ?_, fun s rest hp h => ?_, fun s w hop hw hp hc => ?_⟩
  · rw [step_of_completes hc hp, completeWord, runWord_nop]
    rfl
  · have hne : (0x01000000 : Word) ≠ clrerrWord := by decide
    exact ⟨step_of_accepted h hp hne, step_of_rejected h hp hne⟩
  · exact step_of_not_decode hp hc (decode_ne_ok_of_fieldless (by decide) hop hw)

/-! ### CLRERR (R531) -/

theorem exec_clrerr (s : State) : exec .clrerr s = .next (clearErrors s) := rfl

/-- Settles O35: the branches of a CMD write for CLRERR's word and for any other, and the one word of op 0x07. -/
theorem clrerrClearsErrorState : Obligations.ClrerrClearsErrorState := by
  refine ⟨exec_clrerr, fun s rest h => ⟨fun hp => ?_, fun hp => ?_⟩,
    fun s rest w hw hp h => step_of_rejected h hp hw,
    fun s w hop hw => ⟨fun rest hp h => step_of_accepted h hp hw, ?_⟩⟩
  · exact step_of_issue h (issue_clrerr (s := s.taken rest) hp)
  · exact step_of_issue h (issue_of_busy (s := s.taken rest) hp _)
  · intro hp hc
    exact step_of_not_decode hp hc (decode_ne_ok_of_fieldless (by decide) hop hw)

end Sys2Proof.Machine

/-! The command path and the pending command (60_exceptions.md R605 to R610), and the reset event
(70_reset_and_hazards.md R700): every command answers, what the host can do beside a pending command, and when that
command completes. -/

namespace Sys2Proof.Machine

/-! ### Every command answers (60_exceptions.md R610) -/

/-- A check before a command's effect stops nothing: a failed one records its error. -/
theorem exists_next_of_guard {c : Prop} [Decidable c] {e : ErrCode} {s : State} {r : Result}
    (h : ∃ t, r = .next t) : ∃ t, (if c then raise e s else r) = .next t := by
  split
  · exact ⟨_, rfl⟩
  · exact h

theorem exec_const_eq (rd : RegIx) (k : Nat) (s : State) :
    exec (.const rd k) s = if 10 < k then raise .badOperand s else .next (s.writeReg rd k) := by
  split
  case isTrue hk => exact exec_const_of_gt hk rd s
  case isFalse hk => exact exec_const_of_le (Nat.not_lt.1 hk) rd s

theorem exec_next (i : Instr) (s : State) : ∃ t, exec i s = .next t := by
  cases i with
  | nop | clrerr | clr | setw => exact ⟨_, rfl⟩
  | const rd k =>
    rw [exec_const_eq]
    exact exists_next_of_guard ⟨_, rfl⟩
  | copy | setlen | cmp | tstz => exact exists_next_of_guard ⟨_, rfl⟩
  | add | sub | mul | mod | mulmod => exact exists_next_of_guard (exists_next_of_guard ⟨_, rfl⟩)
  | div => exact exists_next_of_guard (exists_next_of_guard (exists_next_of_guard ⟨_, rfl⟩))

/-- Settles O6: each command is a chain of checks before one next state (`exec_next`). -/
theorem everyCommandCompletes : Obligations.EveryCommandCompletes := exec_next

/-! ### The completion step (60_exceptions.md R605, R606) -/

theorem completes_of_pend {s : State} (hp : s.pend ≠ none) (h : s.wait = 0 ∨ s.host = []) : s.completes = true := by
  simpa [State.completes, busy_of_pend hp] using h

theorem runWord_of_decode {w : Word} {i : Instr} (hd : decode w = .ok i) (s : State) : runWord w s = exec i s := by
  rw [runWord, hd]

theorem step_of_decode {s t : State} {w : Word} {i : Instr} (hc : s.completes = true) (hp : s.pend = some w)
    (hd : decode w = .ok i) (hx : exec i s = .next t) : step s = .next { t with pend := none, wait := 0 } := by
  rw [step_of_completes hc hp, completeWord, runWord_of_decode hd, hx]
  rfl

/-- The completion step answers, whatever the pending word, and leaves the block idle. -/
theorem step_of_completes_next {s : State} {w : Word} (hc : s.completes = true) (hp : s.pend = some w) :
    ∃ t, step s = .next t ∧ t.pend = none := by
  rw [step_of_completes hc hp, completeWord, runWord]
  split
  case h_1 i _ =>
    obtain ⟨t, ht⟩ := exec_next i s
    exact ⟨finish t, by rw [ht]; rfl, rfl⟩
  case h_2 => exact ⟨_, rfl, rfl⟩

/-- Settles O7: the two moments at which it is the block's turn are those of `completes`. -/
theorem completionStepRunsDecodedCommand : Obligations.CompletionStepRunsDecodedCommand :=
  fun s _ _ _ hp hturn hd hx => step_of_decode (completes_of_pend (by simp [hp]) hturn) hp hd hx

/-! ### The command path -/

/-- Settles O8: one lemma per branch of a CMD write, and the completion step of a word that does not decode or does. -/
theorem commandPathIsRule605 : Obligations.CommandPathIsRule605 := by
  refine ⟨fun s w rest h => ⟨fun hp => ?_, fun hp hw => ?_, fun hp hw he => step_of_rejected h hp hw he,
    fun hp hw he ho => ?_⟩, fun s w hp hc => ⟨fun r hr => ?_, fun i hi => ?_⟩⟩
  · exact step_of_issue h (issue_of_busy (s := s.taken rest) hp w)
  · subst hw
    exact step_of_issue h (issue_clrerr (s := s.taken rest) hp)
  · exact step_of_issue h (issue_of_no_error (s := s.taken rest) hp hw he ho)
  · exact step_of_not_decode hp hc fun i hi => by simp [hr] at hi
  · obtain ⟨t, ht⟩ := exec_next i s
    exact ⟨t, ht, step_of_decode hc hp hi ht⟩

/-! ### Overrun and rejection (60_exceptions.md R607, R608) -/

/-- Where the map names a limb, the offset is that limb's (20_memory.md R201). -/
theorem target_eq_limb {m : Nat} {off : Offset} (ho : off.toNat % 4 = 0) {i : RegIx} {k : Nat}
    (h : target m off = .limb i k) : k < 1024 ∧ k < m ∧ off.toNat = 0x1000 + 0x1000 * i.val + 4 * k := by
  by_cases hw : 0x1000 ≤ off.toNat ∧ off.toNat < 0x11000 ∧ (off.toNat - 0x1000) % 0x1000 / 4 < m
  · obtain ⟨hlo, hhi, hm⟩ := hw
    rw [target_limb off ((off.toNat - 0x1000) / 0x1000) ((off.toNat - 0x1000) % 0x1000 / 4) (by omega) (by omega) hm
      (by omega)] at h
    obtain ⟨rfl, rfl⟩ := Target.limb.inj h
    exact ⟨by omega, hm, by dsimp only; omega⟩
  · exact absurd h (target_ne_limb off hw i k)

/-- Every target but CMD, DATA and a limb ignores a write (20_memory.md R207). -/
theorem target_readOnly_of_not_written {m : Nat} {off : Offset} (ho : off.toNat % 4 = 0) (hcmd : off.toNat ≠ 0x000)
    (hdata : off.toNat ≠ 0x008)
    (hlimb : ¬∃ i k : Nat, i < 16 ∧ k < 1024 ∧ k < m ∧ off.toNat = 0x1000 + 0x1000 * i + 4 * k) :
    (target m off).readOnly = true := by
  cases hg : target m off with
  | cmd => exact absurd (congrArg BitVec.toNat (target_eq_cmd hg)) hcmd
  | data => exact absurd (congrArg BitVec.toNat (target_eq_data hg)) hdata
  | limb i k =>
    obtain ⟨hk, hm, heq⟩ := target_eq_limb ho hg
    exact absurd ⟨i.val, k, i.isLt, hk, hm, heq⟩ hlimb
  | _ => rfl

/-- Settles O9: the three written targets drop a write while busy and the others ignore it; the sticky clause is
O11's. -/
theorem overrunWhileBusy : Obligations.OverrunWhileBusy := by
  refine ⟨fun s rest off v hp h ho => ⟨?_, fun ⟨hcmd, hdata, hlimb⟩ => ?_⟩, fun s t hs ho h => ?_,
    fun s rest w ho hp hw h => step_of_rejected h hp hw (.inr ho)⟩
  · rintro (hoff | hoff | ⟨i, k, hi, hk, hm, hoff⟩)
    · obtain rfl : off = 0 := BitVec.eq_of_toNat_eq hoff
      exact step_of_issue h (issue_of_busy (s := s.taken rest) hp v)
    · obtain rfl : off = 8 := BitVec.eq_of_toNat_eq hoff
      exact (step_of_writeData h).2 hp
    · exact (step_of_writeLimb h ho (target_limb off i k hi hk hm hoff)).1 hp
  · exact step_of_readOnlyWrite h ho rfl (target_readOnly_of_not_written ho hcmd hdata hlimb)
  · cases hto : t.ovr with
    | true => exact .inl rfl
    | false =>
      have hsticky := (errorStateIsSticky s t hs h).2.1 ho
      exact .inr ⟨rfl, hsticky.resolve_left (by simp [hto])⟩

/-- Settles O10: the reject branch of a CMD write; the sticky clause is O11's. -/
theorem rejectedCommandSetsOnlyRej : Obligations.RejectedCommandSetsOnlyRej := by
  refine ⟨fun s rest w hp he hw h => step_of_rejected h hp hw he, fun s t hs hr h => ?_⟩
  cases htr : t.rej with
  | true => exact .inl rfl
  | false =>
    have hsticky := (errorStateIsSticky s t hs h).2.2 hr
    exact .inr ⟨rfl, hsticky.resolve_left (by simp [htr])⟩

/-! ### Beside a pending command (60_exceptions.md R606, R607) -/

/-- A legal write beside a pending command is dropped with OVR or ignored. -/
theorem writeTarget_of_busy {g : Target} {v : Word} {s t : State} (hb : s.busy = true)
    (h : writeTarget g v s = .next t) : t = overrun s ∨ t = s := by
  rcases writeTarget_next_cases h with ⟨-, hi⟩ | ⟨-, rfl⟩ | ⟨-, hidle, -⟩ | ⟨_, _, -, hidle, -⟩ | rfl
  · rw [issue, if_pos hb] at hi
    cases hi
    exact .inl rfl
  · exact .inl rfl
  · simp [hb] at hidle
  · simp [hb] at hidle
  · exact .inr rfl

/-- Beside a pending command a host event but reset writes OVR alone, and the model's own fields; a WAIT goes back to
the queue. -/
theorem hostEvent_of_busy {e : HostEvent} {s t : State} (hb : s.busy = true) (hr : e ≠ .reset)
    (h : hostEvent e s = .next t) :
    ∃ o b d q, t = { s with ovr := o, bus := b, draws := d, host := q } ∧ (q = s.host ∨ q = .poll :: s.host) := by
  rcases hostEvent_next_cases h with ⟨b, d, q, rfl, hq⟩ | ⟨he, -⟩ | ⟨_, _, _, u, -, -, hu, rfl⟩
  · exact ⟨s.ovr, b, d, q, rfl, hq⟩
  · exact absurd he hr
  · rcases writeTarget_of_busy hb hu with rfl | rfl
    · exact ⟨true, _, s.draws, s.host, rfl, .inl rfl⟩
    · exact ⟨u.ovr, _, u.draws, u.host, rfl, .inl rfl⟩

/-- Settles O12: what a host event writes beside a pending command (`hostEvent_of_busy`) the command does not read. -/
theorem pendingCommandIsShielded : Obligations.PendingCommandIsShielded := by
  intro s t w hp hc hreset h
  rcases step_next_cases h with ⟨_, _, hc', -⟩ | ⟨-, -, rfl⟩ | ⟨e, rest, ⟨-, hhost⟩, he⟩
  · simp [hc] at hc'
  · exact ⟨hp, rfl, rfl, rfl, rfl, rfl, rfl⟩
  · have hbusy : (s.taken rest).busy = true := busy_of_pend (by simp [hp])
    have hne : e ≠ .reset := fun h => hreset rest (h ▸ hhost)
    obtain ⟨o, b, d, q, rfl, -⟩ := hostEvent_of_busy hbusy hne he
    exact ⟨hp, rfl, rfl, rfl, rfl, rfl, rfl⟩

/-! ### Bounded progress (60_exceptions.md R606) -/

/-- A legal host event is answered (20_memory.md R202). -/
theorem hostEvent_next_of_legal {e : HostEvent} (h : e.legal = true) (s : State) : ∃ t, hostEvent e s = .next t := by
  cases e with
  | read width off => exact ⟨_, if_pos h⟩
  | write width off v =>
    obtain ⟨u, hu⟩ := writeTarget_next (target s.maxLimbs off) v s
    exact ⟨_, (if_pos h).trans (by rw [hu]; rfl)⟩
  | poll | reset => exact ⟨_, rfl⟩

/-- A step beside a pending command whose latency has not run out: a reset discards the command, any other legal event
brings the completion one event nearer. -/
theorem step_of_waiting {s : State} {w : Word} (hp : s.pend = some w) (hc : s.completes = false)
    (hlegal : ∀ e ∈ s.host, e.legal = true) :
    ∃ t, step s = .next t
      ∧ (t.pend = none ∨ (t.pend = some w ∧ t.wait + 1 = s.wait ∧ ∀ e ∈ t.host, e.legal = true)) := by
  have hturn : ¬(s.wait = 0 ∨ s.host = []) := fun h => by simp [completes_of_pend (by simp [hp]) h] at hc
  rw [not_or] at hturn
  obtain ⟨hwait, hne⟩ := hturn
  obtain ⟨e, rest, hhost⟩ := List.exists_cons_of_ne_nil hne
  obtain ⟨he, hrest⟩ := List.forall_mem_cons.1 (hhost ▸ hlegal)
  obtain ⟨t, ht⟩ := hostEvent_next_of_legal he (s.taken rest)
  refine ⟨t, (step_of_hostTurn ⟨hc, hhost⟩).trans ht, ?_⟩
  by_cases hr : e = .reset
  · subst hr
    cases ht
    exact .inl rfl
  · have hbusy : (s.taken rest).busy = true := busy_of_pend (by simp [hp])
    obtain ⟨o, b, d, q, rfl, rfl | rfl⟩ := hostEvent_of_busy hbusy hr ht
    · exact .inr ⟨hp, Nat.succ_pred_eq_of_ne_zero hwait, hrest⟩
    · exact .inr ⟨hp, Nat.succ_pred_eq_of_ne_zero hwait, List.forall_mem_cons.2 ⟨rfl, hrest⟩⟩

/-- Settles O13, by induction on the drawn latency. -/
theorem pendingCommandCompletes : Obligations.PendingCommandCompletes := by
  intro s w hp hlegal
  induction hn : s.wait generalizing s with
  | zero =>
    obtain ⟨t, ht, htp⟩ := step_of_completes_next (completes_of_pend (by simp [hp]) (.inl hn)) hp
    exact ⟨1, t, le_rfl, run_succ 0 ht, htp⟩
  | succ n ih =>
    cases hc : s.completes with
    | true =>
      obtain ⟨t, ht, htp⟩ := step_of_completes_next hc hp
      exact ⟨1, t, by omega, run_succ 0 ht, htp⟩
    | false =>
      obtain ⟨t, ht, htp | ⟨htp, htw, htl⟩⟩ := step_of_waiting hp hc hlegal
      · exact ⟨1, t, by omega, run_succ 0 ht, htp⟩
      · obtain ⟨k, u, hk, hrun, hu⟩ := ih t htp htl (by omega)
        exact ⟨k + 1, u, by omega, (run_succ k ht).trans hrun, hu⟩

/-! ### Reset (70_reset_and_hazards.md R700) -/

/-- Settles O15: the event is `resetBlock` of the state without it. -/
theorem resetEventRestoresEverything : Obligations.ResetEventRestoresEverything := fun _ _ h => step_of_hostTurn h

end Sys2Proof.Machine

/-! The table of errors with its priority (60_exceptions.md R601, R604): each command checks the conditions of the table
one after another, in the order of the priority. -/

namespace Sys2Proof.Machine

/-- Where `es` names, by ascending rank, the errors that may hold, `r` is the answer the table asks for: the first error
that holds is recorded and nothing else is written, and with none of them the answer is a next state without an
error. -/
def RaisesFirst (s : State) (holds : ErrCode → Prop) (es : List ErrCode) (r : Result) : Prop :=
  (∀ e, holds e → e ∈ es) → es.Pairwise (·.rank < ·.rank) →
    (∀ e, holds e → (∀ e', holds e' → e.rank ≤ e'.rank) → r = raise e s)
    ∧ ((∀ e, ¬holds e) → ∃ t, r = .next t ∧ t.err = none)

section
variable {s : State} {holds : ErrCode → Prop}

theorem RaisesFirst.next {t : State} (ht : t.err = none) : RaisesFirst s holds [] (.next t) :=
  fun hmem _ => ⟨fun e he => absurd (hmem e he) List.not_mem_nil, fun _ => ⟨t, rfl, ht⟩⟩

/-- A check of the condition of `e` before the checks of the errors of greater rank. -/
theorem RaisesFirst.check {e : ErrCode} {es : List ErrCode} {c : Prop} [Decidable c] {r : Result}
    (hc : c ↔ holds e) (h : RaisesFirst s holds es r) :
    RaisesFirst s holds (e :: es) (if c then raise e s else r) := by
  intro hmem hsorted
  obtain ⟨hfirst, hrest⟩ := List.pairwise_cons.1 hsorted
  by_cases hholds : holds e
  · rw [if_pos (hc.2 hholds)]
    refine ⟨fun e' he' hmin => ?_, fun hnone => absurd hholds (hnone e)⟩
    rcases List.mem_cons.1 (hmem e' he') with rfl | htail
    · rfl
    · exact absurd (hfirst e' htail) (Nat.not_lt.2 (hmin e hholds))
  · rw [if_neg (mt hc.1 hholds)]
    refine h (fun e' he' => ?_) hrest
    rcases List.mem_cons.1 (hmem e' he') with rfl | htail
    · exact absurd he' hholds
    · exact htail

end

/-- The columns of the table of errors (R601): the errors a command can raise, in the order of R604. -/
def possibleErrors : Instr → List ErrCode
  | .nop | .clr _ | .setw _ | .clrerr => []
  | .const _ _ | .setlen _ => [.badOperand]
  | .copy _ _ | .cmp _ _ | .tstz _ => [.dirtyOperand]
  | .add _ _ _ | .mul _ _ _ => [.dirtyOperand, .capacity]
  | .sub _ _ _ => [.dirtyOperand, .subUnderflow]
  | .mod _ _ _ | .mulmod _ _ _ _ => [.dirtyOperand, .divZero]
  | .div _ _ _ _ => [.badOperand, .dirtyOperand, .divZero]

/-- The table has no condition for any other error. -/
theorem mem_possibleErrors_of_raises {s : State} {i : Instr} {e : ErrCode} : Raises s e i → e ∈ possibleErrors i := by
  cases i <;> cases e <;> simp [possibleErrors, Raises]

theorem possibleErrors_pairwise (i : Instr) : (possibleErrors i).Pairwise (·.rank < ·.rank) := by
  cases i <;> simp [possibleErrors, ErrCode.rank]

theorem State.anyDirty_singleton_eq_true (s : State) (i : RegIx) : s.anyDirty [i] = true ↔ s.dirty i = true := by
  simp [State.anyDirty]

/-- Each command is a chain of checks, one for each of its possible errors. -/
theorem exec_raisesFirst {s : State} (hs : s.Inv) (he : s.err = none) (i : Instr) :
    RaisesFirst s (Raises s · i) (possibleErrors i) (exec i s) := by
  cases i with
  | nop | clr | setw => exact .next he
  | clrerr => exact .next rfl
  | const rd k =>
    rw [exec_const_eq]
    exact .check Iff.rfl (.next he)
  | setlen rd => exact .check Iff.rfl (.next he)
  | copy rd rs1 => exact .check (s.anyDirty_singleton_eq_true rs1) (.next he)
  | tstz rs1 => exact .check (s.anyDirty_singleton_eq_true rs1) (.next he)
  | cmp rs1 rs2 => exact .check (s.anyDirty_pair_eq_true rs1 rs2) (.next he)
  | add rd rs1 rs2 =>
    rw [exec_add_eq hs]
    exact .check (s.anyDirty_pair_eq_true rs1 rs2) (.check Iff.rfl (.next he))
  | sub rd rs1 rs2 =>
    rw [exec_sub_eq hs]
    exact .check (s.anyDirty_pair_eq_true rs1 rs2) (.check Iff.rfl (.next he))
  | mul rd rs1 rs2 =>
    rw [exec_mul_eq]
    exact .check (s.anyDirty_pair_eq_true rs1 rs2) (.check Iff.rfl (.next he))
  | mod rd rs1 rs2 => exact .check (s.anyDirty_pair_eq_true rs1 rs2) (.check Iff.rfl (.next he))
  | mulmod rd rs1 rs2 rs3 => exact .check (s.anyDirty_triple_eq_true rs1 rs2 rs3) (.check Iff.rfl (.next he))
  | div rd rs1 rs2 rs3 =>
    exact .check Iff.rfl (.check (s.anyDirty_pair_eq_true rs1 rs2) (.check Iff.rfl (.next he)))

theorem wordRaises_of_decode {w : Word} {i : Instr} (hd : decode w = .ok i) (s : State) :
    WordRaises s w = (Raises s · i) := by
  funext e
  rw [WordRaises, hd]

theorem wordRaises_of_error {w : Word} {r : Reject} (hd : decode w = .error r) (s : State) :
    WordRaises s w = (· = .illegalOp) := by
  funext e
  rw [WordRaises, hd]

/-- Settles O55: a word that decodes runs its command's chain of checks (`exec_raisesFirst`), one that does not has
ILLEGAL_OP for its only error. -/
theorem errorsFollowTheTableAndPriority : Obligations.ErrorsFollowTheTableAndPriority := by
  intro s w hs he
  cases hd : decode w with
  | ok i =>
    rw [runWord_of_decode hd, wordRaises_of_decode hd]
    exact exec_raisesFirst hs he i (fun _ => mem_possibleErrors_of_raises) (possibleErrors_pairwise i)
  | error r =>
    rw [runWord, hd, wordRaises_of_error hd]
    refine ⟨fun e h _ => ?_, fun hnone => absurd rfl (hnone .illegalOp)⟩
    rw [h]
    rfl

end Sys2Proof.Machine

/-! Loading a wide value (70_reset_and_hazards.md R704): the run of LDBIG's events (30_encoding.md R321) through the
limb writes, the write of DATA, the SETLEN command and the WAIT, whatever the latency. -/

namespace Sys2Proof.Machine

/-! ### Runs -/

/-- Some number of steps leads from `s` to `t`. -/
def Reaches (s t : State) : Prop := ∃ k, Sys2Proof.core.run k s = .next t

theorem Reaches.refl (s : State) : Reaches s s := ⟨0, rfl⟩

theorem Reaches.head {s t u : State} (h : step s = .next t) : Reaches t u → Reaches s u := fun ⟨k, hk⟩ =>
  ⟨k + 1, (run_succ k h).trans hk⟩

theorem Reaches.trans {s t u : State} : Reaches s t → Reaches t u → Reaches s u := by
  rintro ⟨k, hk⟩ htu
  induction k generalizing s with
  | zero => cases hk; exact htu
  | succ k ih =>
    simp only [Host.Core.run] at hk
    split at hk
    case h_1 s' hs => exact .head hs (ih hk)
    case h_2 | h_3 => cases hk

/-! ### WAIT (R321) -/

/-- A WAIT reads STATUS, and goes back to the queue while BUSY = 1. -/
theorem step_of_poll {s : State} {rest : List HostEvent} (h : s.HostTurn .poll rest) :
    step s = .next { s.taken rest with
      bus := some (.data s.statusWord), host := if s.busy then .poll :: rest else rest } := by
  rw [step_of_hostTurn h]
  have hread : readTarget .status (s.taken rest) = { s.taken rest with bus := some (.data s.statusWord) } :=
    if_neg (by simp [Target.openWhileBusy])
  rw [hostEvent, hread]
  cases hp : s.pend <;> simp [State.busy, hp]

/-- A host that waits brings the pending word to its completion step, and changes nothing but the answer. -/
theorem reaches_completes {s : State} {w : Word} (hp : s.pend = some w) (hh : s.host = [.poll]) :
    ∃ b, Reaches s { s with wait := 0, host := [.poll], bus := b } := by
  induction hn : s.wait generalizing s with
  | zero => exact ⟨s.bus, by simpa only [← hn, ← hh] using Reaches.refl s⟩
  | succ n ih =>
    have hc : s.completes = false := by simp [State.completes, hn, hh]
    have hstep := step_of_poll ⟨hc, hh⟩
    rw [busy_of_pend (by simp [hp]), if_pos rfl] at hstep
    obtain ⟨b, hb⟩ := ih (s := { s.taken [] with bus := some (.data s.statusWord), host := [.poll] }) hp rfl
      (by simp [hn])
    exact ⟨b, .head hstep hb⟩

/-! ### A command issued and waited for (R321, 70_reset_and_hazards.md R710) -/

theorem State.trustworthy_iff (s : State) :
    s.trustworthy = true ↔ s.pend = none ∧ s.err = none ∧ s.ovr = false ∧ s.rej = false := by
  simp [State.trustworthy, State.busy, and_assoc]

theorem encode_ne_clrerrWord {i : Instr} (hi : i.wellFormed = true) (hne : i ≠ .clrerr) : encode i ≠ clrerrWord := by
  intro h
  have hclrerr : decode clrerrWord = .ok .clrerr := decode_of_encode_eq rfl rfl
  have hi' := decodeInvertsEncode i hi
  rw [h, hclrerr] at hi'
  exact hne (Except.ok.inj hi').symm

/-- `s` at the completion step of the command `i`, for which the host waits. -/
def State.awaiting (s : State) (i : Instr) (b : Option Reply) (d : Nat) : State :=
  { s with pend := some (encode i), wait := 0, host := [.poll], bus := b, draws := d }

theorem State.Inv.awaiting {s : State} (hs : s.Inv) (ht : s.trustworthy = true) {i : Instr} (hi : i.wellFormed = true)
    (hne : i ≠ .clrerr) (b : Option Reply) (d : Nat) : (s.awaiting i b d).Inv := by
  obtain ⟨-, he, ho, -⟩ := s.trustworthy_iff.1 ht
  have haccept := hs.accept (encode_ne_clrerrWord hi hne) he ho
  exact ⟨hs.cap_range, hs.regs_ok, hs.flags_legal, haccept.pending, hs.rejected, fun _ => rfl⟩

/-- From a trustworthy state the host issues a command and waits: the command runs on the registers, FLAGS and DATA of
that state, and the block is idle again when the WAIT ends. -/
theorem reaches_of_issueAndWait {s : State} (ht : s.trustworthy = true) {i : Instr} (hi : i.wellFormed = true)
    (hne : i ≠ .clrerr) (hh : s.host = issueAndWait i) :
    ∃ b d, ∀ u, exec i (s.awaiting i b d) = .next u → ∃ b', Reaches s { finish u with bus := b', host := [] } := by
  obtain ⟨hp, he, ho, -⟩ := s.trustworthy_iff.1 ht
  have hissue := issue_of_no_error (s := s.taken [.poll]) hp (encode_ne_clrerrWord hi hne) he ho
  have haccept := step_of_issue (hostTurn_of_idle hp hh) hissue
  obtain ⟨b, hb⟩ := reaches_completes
    (w := encode i) (s := { accept (encode i) (s.taken [.poll]) with bus := some .done }) rfl rfl
  refine ⟨b, s.draws + 1, fun u hu => ?_⟩
  have hcomplete := step_of_decode (s := s.awaiting i b (s.draws + 1)) rfl rfl (decodeInvertsEncode i hi) hu
  obtain ⟨-, -, huhost, -, -⟩ := exec_pend_wait_host_bus_draws hu
  have hpoll := step_of_poll (hostTurn_of_idle (s := finish u) rfl huhost)
  exact ⟨_, .head haccept (hb.trans (.head hcomplete (.head hpoll (.refl _))))⟩

/-! ### LDBIG (R704) -/

/-- What an event of LDBIG keeps: a trustworthy state of the invariant, every register but `rd`, and FLAGS. -/
structure LoadsInto (rd : RegIx) (s t : State) : Prop where
  inv : t.Inv
  trustworthy : t.trustworthy = true
  maxLimbs : t.maxLimbs = s.maxLimbs
  flags : t.flags = s.flags
  regs : ∀ i, i ≠ rd → t.reg i = s.reg i

theorem LoadsInto.trans {rd : RegIx} {s t u : State} (h : LoadsInto rd s t) (k : LoadsInto rd t u) :
    LoadsInto rd s u where
  inv := k.inv
  trustworthy := k.trustworthy
  maxLimbs := k.maxLimbs.trans h.maxLimbs
  flags := k.flags.trans h.flags
  regs i hi := (k.regs i hi).trans (h.regs i hi)

/-- A limb write of a trustworthy block. -/
theorem step_of_loadLimb {s : State} (hs : s.Inv) (ht : s.trustworthy = true) {rd : RegIx} {k : Nat} {v : Word}
    {rest : List HostEvent} (hk : k < s.maxLimbs)
    (hh : s.host = .write 4 (BitVec.ofNat 17 (0x1000 + 0x1000 * rd.val + 4 * k)) v :: rest) :
    ∃ t, step s = .next t ∧ LoadsInto rd s t ∧ t.host = rest ∧ (t.reg rd).limbs = (s.reg rd).limbs.set k v := by
  have hcap := hs.cap_range.2
  have hoff : (BitVec.ofNat 17 (0x1000 + 0x1000 * rd.val + 4 * k)).toNat = 0x1000 + 0x1000 * rd.val + 4 * k := by
    rw [BitVec.toNat_ofNat, Nat.mod_eq_of_lt (by omega)]
  have hp := (s.trustworthy_iff.1 ht).1
  have hstep := (step_of_writeLimb (hostTurn_of_idle hp hh) (by omega)
    (target_limb _ rd k rd.isLt (by omega) hk hoff)).2 hp
  refine ⟨_, hstep, ⟨((hs.taken rest).setBus _).writeLimb _ _ _, ht, rfl, rfl, fun i hi => reg_setReg_ne _ _ _ _ hi⟩,
    rfl, ?_⟩
  rw [reg_writeLimb, if_pos rfl]
  rfl

/-- LDBIG's limb writes from limb `k` up leave their limbs above those below `k`. -/
theorem reaches_of_limbWrites {s : State} (hs : s.Inv) (ht : s.trustworthy = true) {rd : RegIx} {k : Nat}
    {vs : List Word} {rest : List HostEvent} (hk : k + vs.length ≤ s.maxLimbs)
    (hh : s.host = limbWrites (0x1000 + 0x1000 * rd.val + 4 * k) vs ++ rest) :
    ∃ t, Reaches s t ∧ LoadsInto rd s t ∧ t.host = rest
      ∧ (t.reg rd).limbs.take (k + vs.length) = (s.reg rd).limbs.take k ++ vs := by
  induction vs generalizing s k with
  | nil => exact ⟨s, .refl s, ⟨hs, ht, rfl, rfl, fun _ _ => rfl⟩, hh, by simp⟩
  | cons v vs ih =>
    rw [List.length_cons] at hk
    have hcap := hs.cap_range.2
    rw [limbWrites_cons v vs (by omega), List.cons_append] at hh
    obtain ⟨t, hstep, hload, hthost, hlimbs⟩ := step_of_loadLimb hs ht (by omega) hh
    obtain ⟨u, hreach, hload', huhost, htake⟩ := ih (k := k + 1) hload.inv hload.trustworthy
      (by rw [hload.maxLimbs]; omega) hthost
    refine ⟨u, .head hstep hreach, hload.trans hload', huhost, ?_⟩
    have hstored : k < (s.reg rd).limbs.length := by rw [(hs.regs_ok rd).limbs_length]; omega
    have hset : ((s.reg rd).limbs.set k v).take (k + 1) = (s.reg rd).limbs.take k ++ [v] := by
      simp [List.take_add_one, hstored, List.take_set_of_le]
    rw [hlimbs, hset, List.append_assoc] at htake
    rw [List.length_cons, Nat.add_comm vs.length, ← Nat.add_assoc]
    exact htake

/-- LDBIG's last events: the length goes to DATA, and SETLEN is issued and waited for. -/
theorem reaches_of_setlen {s : State} (hs : s.Inv) (ht : s.trustworthy = true) {rd : RegIx} {n : Word}
    (hn : n.toNat ≤ s.maxLimbs) (hh : s.host = .write 4 0x008 n :: issueAndWait (.setlen rd)) :
    ∃ t, Reaches s t ∧ LoadsInto rd s t ∧ t.host = [] ∧ t.Holds rd (limbsVal ((s.reg rd).limbs.take n.toNat)) := by
  have hp := (s.trustworthy_iff.1 ht).1
  have hdata := (step_of_writeData (hostTurn_of_idle hp hh)).1 hp
  have hdataInv := ((hs.taken (issueAndWait (.setlen rd))).setData n).setBus (some .done)
  have hne : Instr.setlen rd ≠ .clrerr := by simp
  obtain ⟨b, d, hrun⟩ := reaches_of_issueAndWait
    (s := { s.taken (issueAndWait (.setlen rd)) with data := n, bus := some .done }) ht rfl hne rfl
  have hinv := hdataInv.awaiting ht (i := .setlen rd) rfl hne b d
  have hx := exec_setlen_of_le hinv hn rd
  obtain ⟨b', hreach⟩ := hrun _ hx
  have hrunWord := (runWord_of_decode (decodeInvertsEncode (.setlen rd) rfl) _).trans hx
  obtain ⟨-, he, ho, hr⟩ := s.trustworthy_iff.1 ht
  have hfit := (BigReg.nlimbs_take_le n.toNat (s.reg rd)).trans hn
  exact ⟨_, .head hdata hreach,
    ⟨(hinv.finish_runWord rfl hrunWord).answered b' _ [], (State.trustworthy_iff _).2 ⟨rfl, he, ho, hr⟩, rfl, rfl,
      fun i hi => reg_writeReg_ne _ rd i _ hi⟩,
    rfl, State.holds_of_reg (reg_writeReg_self _ rd _) hfit⟩

/-- Settles O56: the limb writes, then the length and SETLEN (`reaches_of_limbWrites`, `reaches_of_setlen`). -/
theorem ldbigLoadsTheValue : Obligations.LdbigLoadsTheValue := by
  intro s rd vs hs ht hlen hh
  have hcap := hs.cap_range.2
  have hn : (BitVec.ofNat 32 vs.length).toNat = vs.length := by
    rw [BitVec.toNat_ofNat, Nat.mod_eq_of_lt (by omega)]
  obtain ⟨t, hlimbs, hload, hthost, htake⟩ := reaches_of_limbWrites hs ht (k := 0) (by omega) hh
  obtain ⟨u, hsetlen, hload', huhost, hholds⟩ := reaches_of_setlen hload.inv hload.trustworthy
    (by rw [hn, hload.maxLimbs]; exact hlen) hthost
  obtain ⟨k, hk⟩ := hlimbs.trans hsetlen
  have hvalue : limbsVal ((t.reg rd).limbs.take (BitVec.ofNat 32 vs.length).toNat) = limbsVal vs := by
    rw [hn]
    simpa using congrArg limbsVal htake
  have hall := hload.trans hload'
  exact ⟨k, u, hk, huhost, hall.trustworthy, hvalue ▸ hholds, hall.regs, hall.flags⟩

end Sys2Proof.Machine
